-- ==== Sys2Proof/Word.lean ====
section
/-! DEFINITION. The word types of the Intel 4004 (spec/00_scope.md R7): a 4-bit nibble, an 8-bit program word, a
12-bit program address, and the numbers that name index registers, pairs, banks, chips and stack levels. -/

namespace Sys2Proof

/-- A 4-bit value: `ACC`, an index register, a RAM character, a port (R7). -/
abbrev Nibble := BitVec 4

/-- An 8-bit word of program ROM, or an 8-bit SRC address (R7, R68). -/
abbrev Byte := BitVec 8

/-- A 12-bit program address (R7). -/
abbrev Addr := BitVec 12

/-- The number of an index register, 0 to 15 (R32, R105). -/
abbrev Reg := BitVec 4

/-- The number of an index register pair, 0 to 7 (R33, R105). -/
abbrev Pair := BitVec 3

/-- The number of a RAM bank: 0 to 3 with one bank per command line, 0 to 7 with a decoder (R70). -/
abbrev Bank := BitVec 3

/-- The number of one of the four program address registers (R35, R36). -/
abbrev Level := BitVec 2

end Sys2Proof
end

