-- ==== Sys2Proof/Machine/Flags.lean ====
section
/-! DEFINITION. The arithmetic of the machine and what it does to `CY` (spec/00_scope.md R14, spec/40_machine_1word.md R120
to R122, spec/43_accumulator.md R222 to R232): pure functions on 4-bit values. `CY` is the only flag (R31). -/

namespace Sys2Proof.Machine

/-- `add4` of R14: the 5-bit sum, narrowed to 4 bits, and its bit 4 as the carry out. -/
def add4 (a b : Nibble) (cin : Bool) : Nibble × Bool :=
  let t := a.toNat + b.toNat + cin.toNat
  (BitVec.ofNat 4 t, decide (16 ≤ t))

/-- `not4` of R14: the one's complement, `15 - a`. -/
def not4 (a : Nibble) : Nibble := ~~~a

/-- The addition law of R121, for `ADD` and `ADM`: the old carry is added in. -/
def addWithCarry (a x : Nibble) (cy : Bool) : Nibble × Bool := add4 a x cy

/-- The subtraction law of R122, for `SUB` and `SBM`: the complements of operand and carry are added, so that the new
carry is 1 when there was no borrow. -/
def subWithBorrow (a x : Nibble) (cy : Bool) : Nibble × Bool := add4 a (not4 x) (!cy)

/-- `IAC` (R121, R222): no carry in. -/
def increment (a : Nibble) : Nibble × Bool := add4 a 1 false

/-- `DAC` (R122, R228): 15 is added, so that the carry is 1 when there was no borrow. -/
def decrement (a : Nibble) : Nibble × Bool := add4 a 15 false

/-- `RAL` (R225): the ring `{CY, ACC}` one to the left. -/
def rotateLeft (a : Nibble) (cy : Bool) : Nibble × Bool :=
  (a.extractLsb' 0 3 ++ BitVec.ofBool cy, a.getLsbD 3)

/-- `RAR` (R226): the ring `{CY, ACC}` one to the right. -/
def rotateRight (a : Nibble) (cy : Bool) : Nibble × Bool :=
  (BitVec.ofBool cy ++ a.extractLsb' 1 3, a.getLsbD 0)

/-- `TCC` (R227): the carry as a 4-bit value. -/
def carryDigit (cy : Bool) : Nibble := if cy then 1 else 0

/-- `TCS` (R229): 9 or 10 by the carry. -/
def carrySubtractDigit (cy : Bool) : Nibble := if cy then 10 else 9

/-- `DAA` (R231): 6 is added when `ACC > 9` or `CY = 1`; the carry is set by a carry out and never cleared. -/
def decimalAdjust (a : Nibble) (cy : Bool) : Nibble × Bool :=
  if 9 < a.toNat ∨ cy = true then
    let t := a.toNat + 6
    (BitVec.ofNat 4 t, cy || decide (16 ≤ t))
  else (a, cy)

/-- `KBP` (R232): a one-of-four code to a number, 15 for more than one bit. -/
def keyboardCode (a : Nibble) : Nibble :=
  match a with
  | 0x0#4 => 0
  | 0x1#4 => 1
  | 0x2#4 => 2
  | 0x4#4 => 3
  | 0x8#4 => 4
  | _ => 15

end Sys2Proof.Machine
end

