-- ==== Sys2Proof/Syntax.lean ====
section
/-! DEFINITION. The instruction set: one constructor per row of spec/opcode_table.json (spec/30_encoding.md R108), with
its mnemonic, its format (R104), its length in words (R100, R102) and its length in instruction cycles (R297). Every
operand field has exactly the width of its encoding field, and every value of it is legal (R111). -/

namespace Sys2Proof

/-- The 46 instructions, in the order of the opcode table. -/
inductive Instr where
  /-- `NOP`, no operation (R130). -/
  | nop
  /-- `JCN`, jump conditional; `c` the mask (bit 3 inverts, bit 2 tests `ACC = 0`, bit 1 tests `CY = 1`, bit 0 tests `TEST = 0`) (R160). -/
  | jcn (c : Nibble) (a8 : Byte)
  /-- `FIM`, load pair `p` with the second word (R161). -/
  | fim (p : Pair) (d8 : Byte)
  /-- `SRC`, send pair `p` as an address (R131). -/
  | src (p : Pair)
  /-- `FIN`, load pair `p` with the ROM byte that pair 0 addresses (R132). -/
  | fin (p : Pair)
  /-- `JIN`, jump within the page to the address in pair `p` (R133). -/
  | jin (p : Pair)
  /-- `JUN`, jump unconditional (R162). -/
  | jun (a12 : Addr)
  /-- `JMS`, jump to subroutine (R163). -/
  | jms (a12 : Addr)
  /-- `INC`, increment index register (R134). -/
  | inc (r : Reg)
  /-- `ISZ`, increment index register, jump unless the result is zero (R164). -/
  | isz (r : Reg) (a8 : Byte)
  /-- `ADD`, add index register with carry (R135). -/
  | add (r : Reg)
  /-- `SUB`, subtract index register with borrow (R136). -/
  | sub (r : Reg)
  /-- `LD`, load accumulator from index register (R137). -/
  | ld (r : Reg)
  /-- `XCH`, exchange accumulator and index register (R138). -/
  | xch (r : Reg)
  /-- `BBL`, return from subroutine, load `d` (R139). -/
  | bbl (d : Nibble)
  /-- `LDM`, load accumulator immediate (R140). -/
  | ldm (d : Nibble)
  /-- `WRM`, write RAM main memory character (R180). -/
  | wrm
  /-- `WMP`, write RAM output port (R181). -/
  | wmp
  /-- `WRR`, write ROM output port (R182). -/
  | wrr
  /-- `WPM`, write program memory (R183). -/
  | wpm
  /-- `WR0`, write RAM status character 0 (R184). -/
  | wr0
  /-- `WR1`, write RAM status character 1 (R185). -/
  | wr1
  /-- `WR2`, write RAM status character 2 (R186). -/
  | wr2
  /-- `WR3`, write RAM status character 3 (R187). -/
  | wr3
  /-- `SBM`, subtract RAM main memory character (R188). -/
  | sbm
  /-- `RDM`, read RAM main memory character (R189). -/
  | rdm
  /-- `RDR`, read ROM input port (R190). -/
  | rdr
  /-- `ADM`, add RAM main memory character (R191). -/
  | adm
  /-- `RD0`, read RAM status character 0 (R192). -/
  | rd0
  /-- `RD1`, read RAM status character 1 (R193). -/
  | rd1
  /-- `RD2`, read RAM status character 2 (R194). -/
  | rd2
  /-- `RD3`, read RAM status character 3 (R195). -/
  | rd3
  /-- `CLB`, clear accumulator and carry (R220). -/
  | clb
  /-- `CLC`, clear carry (R221). -/
  | clc
  /-- `IAC`, increment accumulator (R222). -/
  | iac
  /-- `CMC`, complement carry (R223). -/
  | cmc
  /-- `CMA`, complement accumulator (R224). -/
  | cma
  /-- `RAL`, rotate left through carry (R225). -/
  | ral
  /-- `RAR`, rotate right through carry (R226). -/
  | rar
  /-- `TCC`, transmit carry and clear (R227). -/
  | tcc
  /-- `DAC`, decrement accumulator (R228). -/
  | dac
  /-- `TCS`, transfer carry subtract (R229). -/
  | tcs
  /-- `STC`, set carry (R230). -/
  | stc
  /-- `DAA`, decimal adjust accumulator (R231). -/
  | daa
  /-- `KBP`, keyboard process (R232). -/
  | kbp
  /-- `DCL`, designate command line (R233). -/
  | dcl
  deriving DecidableEq, Repr

/-- The mnemonic, as spec/opcode_table.json spells it. -/
def Instr.mnemonic : Instr → String
  | .nop => "NOP"
  | .jcn _ _ => "JCN"
  | .fim _ _ => "FIM"
  | .src _ => "SRC"
  | .fin _ => "FIN"
  | .jin _ => "JIN"
  | .jun _ => "JUN"
  | .jms _ => "JMS"
  | .inc _ => "INC"
  | .isz _ _ => "ISZ"
  | .add _ => "ADD"
  | .sub _ => "SUB"
  | .ld _ => "LD"
  | .xch _ => "XCH"
  | .bbl _ => "BBL"
  | .ldm _ => "LDM"
  | .wrm => "WRM"
  | .wmp => "WMP"
  | .wrr => "WRR"
  | .wpm => "WPM"
  | .wr0 => "WR0"
  | .wr1 => "WR1"
  | .wr2 => "WR2"
  | .wr3 => "WR3"
  | .sbm => "SBM"
  | .rdm => "RDM"
  | .rdr => "RDR"
  | .adm => "ADM"
  | .rd0 => "RD0"
  | .rd1 => "RD1"
  | .rd2 => "RD2"
  | .rd3 => "RD3"
  | .clb => "CLB"
  | .clc => "CLC"
  | .iac => "IAC"
  | .cmc => "CMC"
  | .cma => "CMA"
  | .ral => "RAL"
  | .rar => "RAR"
  | .tcc => "TCC"
  | .dac => "DAC"
  | .tcs => "TCS"
  | .stc => "STC"
  | .daa => "DAA"
  | .kbp => "KBP"
  | .dcl => "DCL"

/-- The eight formats of R104. -/
inductive Format where
  | impl
  | reg
  | pair
  | imm4
  | condA8
  | pairD8
  | a12
  | regA8
  deriving DecidableEq, Repr

/-- The format of an instruction (R104, last column). -/
def Instr.format : Instr → Format
  | .nop => .impl
  | .jcn _ _ => .condA8
  | .fim _ _ => .pairD8
  | .src _ => .pair
  | .fin _ => .pair
  | .jin _ => .pair
  | .jun _ => .a12
  | .jms _ => .a12
  | .inc _ => .reg
  | .isz _ _ => .regA8
  | .add _ => .reg
  | .sub _ => .reg
  | .ld _ => .reg
  | .xch _ => .reg
  | .bbl _ => .imm4
  | .ldm _ => .imm4
  | .wrm => .impl
  | .wmp => .impl
  | .wrr => .impl
  | .wpm => .impl
  | .wr0 => .impl
  | .wr1 => .impl
  | .wr2 => .impl
  | .wr3 => .impl
  | .sbm => .impl
  | .rdm => .impl
  | .rdr => .impl
  | .adm => .impl
  | .rd0 => .impl
  | .rd1 => .impl
  | .rd2 => .impl
  | .rd3 => .impl
  | .clb => .impl
  | .clc => .impl
  | .iac => .impl
  | .cmc => .impl
  | .cma => .impl
  | .ral => .impl
  | .rar => .impl
  | .tcc => .impl
  | .dac => .impl
  | .tcs => .impl
  | .stc => .impl
  | .daa => .impl
  | .kbp => .impl
  | .dcl => .impl

/-- The number of words of a format (R104). -/
def Format.words : Format → Nat
  | .impl | .reg | .pair | .imm4 => 1
  | .condA8 | .pairD8 | .a12 | .regA8 => 2

/-- The number of words of an instruction (R100). -/
def Instr.words (i : Instr) : Nat := i.format.words

/-- The number of instruction cycles (R297): one per word, but two for the one-word `FIN` (R103). Timing only: no
meaning reads it. -/
def Instr.cycles (i : Instr) : Nat :=
  match i with
  | .fin _ => 2
  | _ => i.words

end Sys2Proof
end

