-- ==== Sys2Proof/WellFormed.lean ====
section
/-! DEFINITION. The opcode table of spec/opcode_table.json as data (spec/30_encoding.md R108), and what makes a string of
words one well-formed instruction: its first word is of exactly one row, and it has as many words as that row says.
Every term of `Instr` is well formed (R111: every value of every operand field is legal), so the checks are on words. -/

namespace Sys2Proof

/-- One row of the opcode table: `match_w1`, `mask_w1` and `words` of spec/opcode_table.json. -/
structure OpcodeRow where
  mnemonic : String
  pattern : Byte
  mask : Byte
  words : Nat
  deriving DecidableEq, Repr

/-- Rows of the machine instructions (source Tables 1 and 2, R109). -/
def machineRows : List OpcodeRow :=
  [ ⟨"NOP", 0x00#8, 0xFF#8, 1⟩,
    ⟨"JCN", 0x10#8, 0xF0#8, 2⟩,
    ⟨"FIM", 0x20#8, 0xF1#8, 2⟩,
    ⟨"SRC", 0x21#8, 0xF1#8, 1⟩,
    ⟨"FIN", 0x30#8, 0xF1#8, 1⟩,
    ⟨"JIN", 0x31#8, 0xF1#8, 1⟩,
    ⟨"JUN", 0x40#8, 0xF0#8, 2⟩,
    ⟨"JMS", 0x50#8, 0xF0#8, 2⟩,
    ⟨"INC", 0x60#8, 0xF0#8, 1⟩,
    ⟨"ISZ", 0x70#8, 0xF0#8, 2⟩,
    ⟨"ADD", 0x80#8, 0xF0#8, 1⟩,
    ⟨"SUB", 0x90#8, 0xF0#8, 1⟩,
    ⟨"LD", 0xA0#8, 0xF0#8, 1⟩,
    ⟨"XCH", 0xB0#8, 0xF0#8, 1⟩,
    ⟨"BBL", 0xC0#8, 0xF0#8, 1⟩,
    ⟨"LDM", 0xD0#8, 0xF0#8, 1⟩ ]

/-- Rows of the data access instructions, `OPR = 1110` (source Table 3, R109). -/
def dataAccessRows : List OpcodeRow :=
  [ ⟨"WRM", 0xE0#8, 0xFF#8, 1⟩,
    ⟨"WMP", 0xE1#8, 0xFF#8, 1⟩,
    ⟨"WRR", 0xE2#8, 0xFF#8, 1⟩,
    ⟨"WPM", 0xE3#8, 0xFF#8, 1⟩,
    ⟨"WR0", 0xE4#8, 0xFF#8, 1⟩,
    ⟨"WR1", 0xE5#8, 0xFF#8, 1⟩,
    ⟨"WR2", 0xE6#8, 0xFF#8, 1⟩,
    ⟨"WR3", 0xE7#8, 0xFF#8, 1⟩,
    ⟨"SBM", 0xE8#8, 0xFF#8, 1⟩,
    ⟨"RDM", 0xE9#8, 0xFF#8, 1⟩,
    ⟨"RDR", 0xEA#8, 0xFF#8, 1⟩,
    ⟨"ADM", 0xEB#8, 0xFF#8, 1⟩,
    ⟨"RD0", 0xEC#8, 0xFF#8, 1⟩,
    ⟨"RD1", 0xED#8, 0xFF#8, 1⟩,
    ⟨"RD2", 0xEE#8, 0xFF#8, 1⟩,
    ⟨"RD3", 0xEF#8, 0xFF#8, 1⟩ ]

/-- Rows of the accumulator group, `OPR = 1111` (source Table 4, R109). -/
def accumulatorRows : List OpcodeRow :=
  [ ⟨"CLB", 0xF0#8, 0xFF#8, 1⟩,
    ⟨"CLC", 0xF1#8, 0xFF#8, 1⟩,
    ⟨"IAC", 0xF2#8, 0xFF#8, 1⟩,
    ⟨"CMC", 0xF3#8, 0xFF#8, 1⟩,
    ⟨"CMA", 0xF4#8, 0xFF#8, 1⟩,
    ⟨"RAL", 0xF5#8, 0xFF#8, 1⟩,
    ⟨"RAR", 0xF6#8, 0xFF#8, 1⟩,
    ⟨"TCC", 0xF7#8, 0xFF#8, 1⟩,
    ⟨"DAC", 0xF8#8, 0xFF#8, 1⟩,
    ⟨"TCS", 0xF9#8, 0xFF#8, 1⟩,
    ⟨"STC", 0xFA#8, 0xFF#8, 1⟩,
    ⟨"DAA", 0xFB#8, 0xFF#8, 1⟩,
    ⟨"KBP", 0xFC#8, 0xFF#8, 1⟩,
    ⟨"DCL", 0xFD#8, 0xFF#8, 1⟩ ]

/-- The whole opcode table (R108). -/
def opcodeTable : List OpcodeRow := machineRows ++ dataAccessRows ++ accumulatorRows

/-- A first word is a row's when it agrees with the row's pattern on the row's mask (R108). -/
def OpcodeRow.covers (row : OpcodeRow) (w1 : Byte) : Bool := (w1 &&& row.mask) == row.pattern

/-- The rows a first word belongs to: exactly one for an instruction, none for a reserved word (R108, R110). -/
def rowsOf (w1 : Byte) : List OpcodeRow := opcodeTable.filter (·.covers w1)

/-- One well-formed instruction: the first word belongs to exactly one row and the words are as many as that row says
(R100, R108, R110). -/
def wordsWellFormed : List Byte → Bool
  | [] => false
  | w1 :: rest =>
    match rowsOf w1 with
    | [row] => rest.length + 1 == row.words
    | _ => false

end Sys2Proof
end

