-- ==== Sys2Proof/Decode.lean ====
section
/-! DEFINITION. Decoding (spec/30_encoding.md R101 to R106, R114), total on any words and refusing by name, and after it
the encoder, written from the same formats (R104, R108). Also here: the bit fields of a word and the order of its
parts (R75), and the numbering in which the opcode table gives an instruction as one number. -/

namespace Sys2Proof

/-- The upper 4 bits of a word: `OPR` of an instruction word (R101), the half a pair's even register holds (R33). -/
def upper4 (w : Byte) : Nibble := w.extractLsb' 4 4

/-- The lower 4 bits of a word: `OPA` of an instruction word (R101), the half a pair's odd register holds (R33). -/
def lower4 (w : Byte) : Nibble := w.extractLsb' 0 4

/-- The pair number `W1[3:1]` of an `OPA` (R105). -/
def pairField (opa : Nibble) : Pair := opa.extractLsb' 1 3

/-- Bit 0 of an `OPA`, which tells `FIM` from `SRC` and `FIN` from `JIN` (R105). -/
def pairBit (opa : Nibble) : Bool := opa.getLsbD 0

/-- R102: an instruction has two words exactly when `OPR` is `0001`, `0100`, `0101` or `0111`, or `OPR` is `0010` and
`OPA[0] = 0`. A function of the first word alone. -/
def twoWords (w1 : Byte) : Bool :=
  match upper4 w1 with
  | 0x1#4 | 0x4#4 | 0x5#4 | 0x7#4 => true
  | 0x2#4 => !pairBit (lower4 w1)
  | _ => false

/-- The data access group, `OPR = 1110`, by `OPA` (R108, R114). -/
def decodeDataAccess (opa : Nibble) : Instr :=
  match opa with
  | 0x0#4 => .wrm
  | 0x1#4 => .wmp
  | 0x2#4 => .wrr
  | 0x3#4 => .wpm
  | 0x4#4 => .wr0
  | 0x5#4 => .wr1
  | 0x6#4 => .wr2
  | 0x7#4 => .wr3
  | 0x8#4 => .sbm
  | 0x9#4 => .rdm
  | 0xA#4 => .rdr
  | 0xB#4 => .adm
  | 0xC#4 => .rd0
  | 0xD#4 => .rd1
  | 0xE#4 => .rd2
  | _ => .rd3

/-- The accumulator group, `OPR = 1111`, by `OPA`; `1110` and `1111` are reserved (R108, R110, R114). -/
def decodeAccumulator (opa : Nibble) : Option Instr :=
  match opa with
  | 0x0#4 => some .clb
  | 0x1#4 => some .clc
  | 0x2#4 => some .iac
  | 0x3#4 => some .cmc
  | 0x4#4 => some .cma
  | 0x5#4 => some .ral
  | 0x6#4 => some .rar
  | 0x7#4 => some .tcc
  | 0x8#4 => some .dac
  | 0x9#4 => some .tcs
  | 0xA#4 => some .stc
  | 0xB#4 => some .daa
  | 0xC#4 => some .kbp
  | 0xD#4 => some .dcl
  | _ => none

/-- R114: the instruction of a first word `w1`, with `w2` the second word, which matters only when `twoWords w1`; `none`
for a reserved first word (R110). -/
def decodeWords (w1 w2 : Byte) : Option Instr :=
  let opa := lower4 w1
  match upper4 w1 with
  | 0x0#4 => if opa = 0 then some .nop else none
  | 0x1#4 => some (.jcn opa w2)
  | 0x2#4 => some (if pairBit opa then .src (pairField opa) else .fim (pairField opa) w2)
  | 0x3#4 => some (if pairBit opa then .jin (pairField opa) else .fin (pairField opa))
  | 0x4#4 => some (.jun (opa ++ w2))
  | 0x5#4 => some (.jms (opa ++ w2))
  | 0x6#4 => some (.inc opa)
  | 0x7#4 => some (.isz opa w2)
  | 0x8#4 => some (.add opa)
  | 0x9#4 => some (.sub opa)
  | 0xA#4 => some (.ld opa)
  | 0xB#4 => some (.xch opa)
  | 0xC#4 => some (.bbl opa)
  | 0xD#4 => some (.ldm opa)
  | 0xE#4 => some (decodeDataAccess opa)
  | _ => decodeAccumulator opa

/-- Why a string of words is no instruction. -/
inductive DecodeError where
  /-- The first word is reserved: `01` to `0F`, `FE`, `FF` (R110). -/
  | reserved (w1 : Byte)
  /-- The words end before the instruction does (R102). -/
  | truncated
  deriving DecidableEq, Repr

/-- The instruction whose first word is `w1` and whose second word, if it has one, is `w2` (R114). -/
def decodeAs (w1 w2 : Byte) (rest : List Byte) : Except DecodeError (Instr × List Byte) :=
  match decodeWords w1 w2 with
  | some i => .ok (i, rest)
  | none => .error (.reserved w1)

/-- Decode the instruction at the front of a string of words; answer it with the words after it (R102, R114). -/
def decode : List Byte → Except DecodeError (Instr × List Byte)
  | [] => .error .truncated
  | w1 :: rest =>
    if twoWords w1 then
      match rest with
      | [] => .error .truncated
      | w2 :: rest => decodeAs w1 w2 rest
    else decodeAs w1 0 rest

/-- Format `PAIR_D8`, `PAIR`: the first word of an instruction that names a pair, with the bit that follows the pair
number (R104, R105). -/
def pairWord (opr : Nibble) (p : Pair) (bit : BitVec 1) : Byte := opr ++ (p ++ bit : Nibble)

/-- Format `A12`: a 12-bit address has its upper 4 bits in the first word's `OPA` and its lower 8 bits in the second word
(R75 (c), R106 (d)). -/
def addressWords (opr : Nibble) (a12 : Addr) : List Byte :=
  [opr ++ a12.extractLsb' 8 4, a12.extractLsb' 0 8]

/-- The words of an instruction, the first at the lower address (R75 (b), R104, R108). -/
def encode : Instr → List Byte
  | .nop => [0x00#8]
  | .jcn c a8 => [0x1#4 ++ c, a8]
  | .fim p d8 => [pairWord 0x2#4 p 0#1, d8]
  | .src p => [pairWord 0x2#4 p 1#1]
  | .fin p => [pairWord 0x3#4 p 0#1]
  | .jin p => [pairWord 0x3#4 p 1#1]
  | .jun a12 => addressWords 0x4#4 a12
  | .jms a12 => addressWords 0x5#4 a12
  | .inc r => [0x6#4 ++ r]
  | .isz r a8 => [0x7#4 ++ r, a8]
  | .add r => [0x8#4 ++ r]
  | .sub r => [0x9#4 ++ r]
  | .ld r => [0xA#4 ++ r]
  | .xch r => [0xB#4 ++ r]
  | .bbl d => [0xC#4 ++ d]
  | .ldm d => [0xD#4 ++ d]
  | .wrm => [0xE0#8]
  | .wmp => [0xE1#8]
  | .wrr => [0xE2#8]
  | .wpm => [0xE3#8]
  | .wr0 => [0xE4#8]
  | .wr1 => [0xE5#8]
  | .wr2 => [0xE6#8]
  | .wr3 => [0xE7#8]
  | .sbm => [0xE8#8]
  | .rdm => [0xE9#8]
  | .rdr => [0xEA#8]
  | .adm => [0xEB#8]
  | .rd0 => [0xEC#8]
  | .rd1 => [0xED#8]
  | .rd2 => [0xEE#8]
  | .rd3 => [0xEF#8]
  | .clb => [0xF0#8]
  | .clc => [0xF1#8]
  | .iac => [0xF2#8]
  | .cmc => [0xF3#8]
  | .cma => [0xF4#8]
  | .ral => [0xF5#8]
  | .rar => [0xF6#8]
  | .tcc => [0xF7#8]
  | .dac => [0xF8#8]
  | .tcs => [0xF9#8]
  | .stc => [0xFA#8]
  | .daa => [0xFB#8]
  | .kbp => [0xFC#8]
  | .dcl => [0xFD#8]

/-- An instruction is well formed when its words are (R111: every term is). -/
def Instr.wellFormed (i : Instr) : Bool := wordsWellFormed (encode i)

/-- The first and second word of an instruction that the opcode table gives as ONE number `w` of `nbits` bits. A row of
two words has its first word in the UPPER byte there (spec/INDEX.md, "Conventions of opcode_table.json"), so that reading
is taken whenever the upper byte begins a two-word instruction; otherwise the low byte is the first word (log 17). -/
def tableWords (nbits w : Nat) : Byte × Byte :=
  let low := BitVec.ofNat 8 w
  let high := BitVec.ofNat 8 (w / 256)
  if 8 < nbits && twoWords high then (high, low) else (low, high)

/-- The instruction the decoder reads from an instruction of the opcode table given as one number (log 17). -/
def decodeTableWord (nbits w : Nat) : Option Instr :=
  match decode [(tableWords nbits w).1, (tableWords nbits w).2] with
  | .ok (i, _) => some i
  | .error _ => none

end Sys2Proof
end

