-- ==== Sys2Proof/Config.lean ====
section
/-! DEFINITION. What the platform fixes (spec/00_scope.md R8) and the free values: what the spec leaves open while the
machine goes on (spec/93_implementation_defined.md part 1). A free value is an opaque constant, so that no proof can
see which value it is. -/

namespace Sys2Proof

/-- How `DCL` selects RAM banks (R8, R70): four command lines with one bank each, or an external decoder. -/
inductive BankMode where
  | direct
  | decoded
  deriving DecidableEq, Repr

/-- The platform parameters of R8 that the machine's behaviour depends on. `NBANKS` follows from `bankMode`;
`ROM`, `TEST` and `RomPortIn` are program text and inputs, held in State; `HALT_CONVENTION` is `State.halted`. -/
structure Platform where
  /-- `ROM_CHIPS`: populated 256-byte ROM chips, 1 to 16. -/
  romChips : Nat
  /-- `BANK_MODE`. -/
  bankMode : BankMode
  /-- `RAM_CHIPS_PER_BANK`: populated RAM chips in each bank, 0 to 4. -/
  ramChipsPerBank : Nat
  /-- `RESET_CLEARS_ALL`: whether reset clears the index registers and the inactive stack levels. -/
  resetClearsAll : Bool
  deriving DecidableEq, Repr

/-- The reference platform of R8. -/
def Platform.reference : Platform :=
  { romChips := 16, bankMode := .direct, ramChipsPerBank := 4, resetClearsAll := true }

/-- The legal values of R8. -/
def Platform.legal (p : Platform) : Bool :=
  decide (1 ≤ p.romChips ∧ p.romChips ≤ 16 ∧ p.ramChipsPerBank ≤ 4)

/-- `NBANKS` (R8): 4 in `direct` mode, 8 in `decoded` mode. -/
def Platform.nbanks (p : Platform) : Nat :=
  match p.bankMode with
  | .direct => 4
  | .decoded => 8

/-- A free 4-bit value, numbered by the draw: a read with several banks selected, a read from a chip that is not
populated, a ROM input sample the host did not supply, an index register after a reset that does not clear it
(R71, R9, R43, R51; DESIGN CHOICE logs 9, 11, 12, 19). -/
opaque Config.freeNibble : Nat → Nibble

/-- A free bit, numbered by the draw: a `TEST` sample the host did not supply (R48; DESIGN CHOICE log 12). -/
opaque Config.freeTest : Nat → Bool

/-- A free program address, numbered by the draw: the stack level a `BBL` leaves behind, an inactive level after a
reset that does not clear it (R139 (a), R51; DESIGN CHOICE logs 8, 19). -/
opaque Config.freeAddr : Nat → Addr

/-- What the never-written RAM main memory character `cell` holds after reset number `epoch`: free, but the same at
every read until it is written (R51, U4; DESIGN CHOICE log 6). -/
opaque Config.unwrittenChar : (epoch cell : Nat) → Nibble

/-- As `Config.unwrittenChar`, for the RAM status characters (R51, U4; DESIGN CHOICE log 6). -/
opaque Config.unwrittenStatus : (epoch cell : Nat) → Nibble

end Sys2Proof
end

