-- ==== Sys2Proof/Machine/State.lean ====
section
/-! DEFINITION. The machine's state (spec/10_state.md R30 to R52), the two kinds of verdict a step can end in (R15), and
the state after reset (spec/70_reset_and_hazards.md R281 to R284). -/

namespace Sys2Proof.Machine

/-- Program text: (program address, word) pairs in the canonical form `Memory.wf`; an unlisted word is 0 (log 1). -/
abbrev Memory := List Host.Cell

/-- RAM characters that have been written since reset: (cell number, character) pairs in the canonical form
`Chars.wf`; an unlisted cell was never written (R51). -/
abbrev Chars := List (Nat × Nibble)

/-- Everything the spec gives the machine (R50), the platform it is on (R8), the inputs the host has supplied and not
yet used (R43, R48, R267), and two counters of the model's own for free values. -/
structure State where
  /-- `ACC` (R30). -/
  acc : Nibble
  /-- `CY` (R31). -/
  cy : Bool
  /-- `R[0]` to `R[15]` (R32). -/
  regs : Vector Nibble 16
  /-- The `DCL` register (R34). -/
  dcl : BitVec 3
  /-- `SP` (R36). -/
  sp : Level
  /-- `STK[0]` to `STK[3]` (R35); `PC` is `STK[SP]` (R37). -/
  stk : Vector Addr 4
  /-- Which levels hold a specified address; a never-written or abandoned one does not (R51, R139 (a), D5). -/
  stkKnown : Vector Bool 4
  /-- `ROM` (R40): a parameter of the spec's machine, held here because a step is a function of the state (log 1). -/
  rom : Memory
  /-- `ROMSEL` (R41). -/
  romSel : Nibble
  /-- Whether an `SRC` has written `ROMSEL` since reset (R51). -/
  romSelSent : Bool
  /-- `ROMOUT[0]` to `ROMOUT[15]` (R42). -/
  romOut : Vector Nibble 16
  /-- `RAMSEL[b]` (R44), for the eight banks a decoder allows; `direct` reaches the first four only. -/
  ramSel : Vector Byte 8
  /-- Whether an `SRC` has reached bank `b` since reset (R51). -/
  ramSelSent : Vector Bool 8
  /-- `RAMCH` (R45), cell number `bank * 256 + chip * 64 + register * 16 + character`. -/
  ramCh : Chars
  /-- `RAMST` (R46), cell number `bank * 64 + chip * 16 + register * 4 + n`. -/
  ramSt : Chars
  /-- `RAMOUT[b][c]` (R47), latch number `bank * 4 + chip`. -/
  ramOut : Vector Nibble 32
  /-- `TEST` samples the host has supplied, oldest first (R48, log 12). -/
  testIn : List Bool
  /-- Samples of ROM chip `k`'s input lines the host has supplied, oldest first (R43, log 12). -/
  romIn : Vector (List Nibble) 16
  /-- The host asserts reset: the next step is the reset (R280, R267 (e), log 13). -/
  resetIn : Bool
  /-- The platform (R8); no step changes it (log 3). -/
  platform : Platform
  /-- The model's own: how many free values have been drawn (log 18). -/
  draws : Nat
  /-- The model's own: which reset the never-written RAM contents belong to (log 18). -/
  ramEpoch : Nat
  deriving DecidableEq, Repr

/-- The model's fault: the run stops because the program broke a duty the spec states. The hardware itself raises no
exception (R250). -/
inductive Fault where
  /-- Raised by `BBL` when the level it would make the PC was never written since reset or was abandoned by an earlier
  `BBL` (R139, R163 (b), R51, D5, U6; log 8). Safe: the hardware goes on at an address the spec does not give. -/
  | returnToUnknownLevel
  deriving DecidableEq, Repr

/-- What the model has no step for (R15, `refuse`). -/
inductive Refusal where
  /-- Raised by an arm of `exec` whose instruction has no meaning yet; no arm uses it. Safe. -/
  | notModelled (mnemonic : String)
  /-- Raised by the fetch when the first word is `01` to `0F`, `FE` or `FF` (R110, R254, D14; log 15). Safe. -/
  | reservedWord (w1 : Byte)
  /-- Raised by the fetch and by `FIN` when ROM address `a` is in a chip the platform lacks (R9, D9; log 11). Safe. -/
  | romNotPopulated (a : Addr)
  /-- Raised by a RAM access when no `SRC` has reached a selected bank `b` since reset (R196, R51, D6; log 10). Safe. -/
  | ramAddressNeverSent (b : Bank)
  /-- Raised by `WRR` and `RDR` when no `SRC` has been executed since reset (R196, R51, D6; log 10). Safe. -/
  | romPortNeverSelected
  deriving DecidableEq, Repr

/-- What executing an instruction answers. -/
abbrev Result := Host.Outcome State Fault Refusal

/-- The machine right after reset on the reference platform, with no program text and no input supplied (R50, R281 to
R284; logs 1, 4, 5, 12, 13, 18 for the values the spec's source does not give). -/
def State.reset : State where
  acc := 0
  cy := false
  regs := Vector.replicate 16 0
  dcl := 0
  sp := 0
  stk := Vector.replicate 4 0
  stkKnown := Vector.replicate 4 true
  rom := []
  romSel := 0
  romSelSent := false
  romOut := Vector.replicate 16 0
  ramSel := Vector.replicate 8 0
  ramSelSent := Vector.replicate 8 false
  ramCh := []
  ramSt := []
  ramOut := Vector.replicate 32 0
  testIn := []
  romIn := Vector.replicate 16 []
  resetIn := false
  platform := Platform.reference
  draws := 0
  ramEpoch := 0

end Sys2Proof.Machine
end

