-- ==== Sys2Proof/Machine/Ops.lean ====
section
/-! DEFINITION. The named operations over memory and registers, the address stack, free values and inputs, the fetch, and
the reset event. The hardware has no exception, interrupt or trap, hence no exception entry and no return from one
(spec/60_exceptions.md R250, R251, R256, R257): there is no such operation here. -/

namespace Sys2Proof.Machine

/-! ### Lists of cells -/

/-- The value listed under a key. -/
def lookupCell {α : Type} (k : Nat) : List (Nat × α) → Option α
  | [] => none
  | (j, v) :: rest => if j = k then some v else lookupCell k rest

/-- List a value under a key, in rising order, in place of the one listed before. -/
def putCell {α : Type} (k : Nat) (v : α) : List (Nat × α) → List (Nat × α)
  | [] => [(k, v)]
  | (j, u) :: rest =>
    if k < j then (k, v) :: (j, u) :: rest
    else if k = j then (k, v) :: rest
    else (j, u) :: putCell k v rest

/-- Unlist a key. -/
def dropCell {α : Type} (k : Nat) : List (Nat × α) → List (Nat × α)
  | [] => []
  | (j, u) :: rest => if j = k then rest else (j, u) :: dropCell k rest

/-- Keys strictly rising. -/
def rising {α : Type} (cells : List (Nat × α)) : Bool := decide (cells.Pairwise fun x y => x.1 < y.1)

/-! ### Program ROM -/

/-- What an unlisted word of program text reads as (log 1, DESIGN CHOICE, unsafe). -/
def Memory.unlisted : Byte := 0

/-- The canonical form of program text: addresses rising and below 4096, no word equal to an unlisted one. -/
def Memory.wf (m : Memory) : Bool := rising m && m.all fun c => decide (c.1 < 4096) && c.2 != Memory.unlisted

/-- The word at a program address (R40). -/
def Memory.read (m : Memory) (a : Nat) : Byte := (lookupCell a m).getD Memory.unlisted

/-- Program text with one word replaced: the host's loading of a program (R267 (a)); no instruction does it (R84). -/
def Memory.write (m : Memory) (a : Addr) (w : Byte) : Memory :=
  if w = Memory.unlisted then dropCell a.toNat m else putCell a.toNat w m

/-- The word of the state's program text at an address, populated or not. -/
def State.romByte (s : State) (a : Addr) : Byte := Memory.read s.rom a.toNat

/-- ROM chip `k` is populated (R8). -/
def State.romChipPopulated (s : State) (k : Nibble) : Bool := decide (k.toNat < s.platform.romChips)

/-- `RomRead` (R13, R61): chip `a[11:8]`; a chip the platform lacks is refused (R9). -/
def State.romRead (s : State) (a : Addr) : Except Refusal Byte :=
  if s.romChipPopulated (a.extractLsb' 8 4) then .ok (s.romByte a) else .error (.romNotPopulated a)

/-! ### Accumulator, carry, index registers -/

/-- `ACC <- v`. -/
def State.setAcc (s : State) (v : Nibble) : State := { s with acc := v }

/-- `CY <- c`. -/
def State.setCy (s : State) (c : Bool) : State := { s with cy := c }

/-- `(ACC, CY) <- p`. -/
def State.setAccCy (s : State) (p : Nibble × Bool) : State := { s with acc := p.1, cy := p.2 }

/-- `DCL <- v` (R34). -/
def State.setDcl (s : State) (v : BitVec 3) : State := { s with dcl := v }

/-- `R[r]` (R12, R32). -/
def State.reg (s : State) (r : Reg) : Nibble := s.regs[r.toNat]

/-- `R[r] <- v` (R12). -/
def State.setReg (s : State) (r : Reg) (v : Nibble) : State := { s with regs := s.regs.set r.toNat v }

/-- The number of a pair's even register, its upper half (R33, R105). -/
def evenReg (p : Pair) : Reg := p ++ 0#1

/-- The number of a pair's odd register, its lower half (R33, R105). -/
def oddReg (p : Pair) : Reg := p ++ 1#1

/-- `P[p] = {R[2p], R[2p+1]}` (R12, R33). -/
def State.pair (s : State) (p : Pair) : Byte := s.reg (evenReg p) ++ s.reg (oddReg p)

/-- `P[p] <- d`: `R[2p] <- d[7:4]`, `R[2p+1] <- d[3:0]` (R12, R33, R75 (d)). -/
def State.setPair (s : State) (p : Pair) (d : Byte) : State :=
  (s.setReg (evenReg p) (upper4 d)).setReg (oddReg p) (lower4 d)

/-! ### The address stack and the program counter -/

/-- `inc12` (R14): over all 12 bits, `0xFFF` is followed by `0x000` (R38, D4; log 16). -/
def inc12 (a : Addr) : Addr := a + 1

/-- `STK[l]` (R35). -/
def State.level (s : State) (l : Level) : Addr := s.stk[l.toNat]

/-- Whether `STK[l]` holds a specified address (R51, R139 (a); log 8). -/
def State.levelKnown (s : State) (l : Level) : Bool := s.stkKnown[l.toNat]

/-- `PC`, an alias of `STK[SP]` (R37). -/
def State.pc (s : State) : Addr := s.level s.sp

/-- `PC <- a` (R16, R37). -/
def State.setPc (s : State) (a : Addr) : State := { s with stk := s.stk.set s.sp.toNat a }

/-- `NEXT` of a one-word instruction at the PC (R16). -/
def State.next1 (s : State) : Addr := inc12 s.pc

/-- `NEXT` of a two-word instruction at the PC (R16). -/
def State.next2 (s : State) : Addr := inc12 (inc12 s.pc)

/-- `PC <- NEXT` of a one-word instruction (R115). -/
def State.advance1 (s : State) : State := s.setPc s.next1

/-- `PC <- NEXT` of a two-word instruction (R115). -/
def State.advance2 (s : State) : State := s.setPc s.next2

/-- `JMS` (R163): the active level keeps the return address, `SP` goes up by one modulo 4 (R36), the newly active level
takes the target and is the PC. -/
def State.call (s : State) (ret target : Addr) : State :=
  { s with
    sp := s.sp + 1
    stk := (s.stk.set s.sp.toNat ret).set (s.sp + 1).toNat target
    stkKnown := (s.stkKnown.set s.sp.toNat true).set (s.sp + 1).toNat true }

/-- `BBL`'s stack action (R139): `SP` goes down by one modulo 4 (R36), the newly active level is the PC as it stands, and
the level left behind holds a free value (R139 (a), U7). A level whose content the spec does not give is no PC: fault
(R51, D5, U6; log 8). -/
def State.returnFromCall (s : State) : Except Fault State :=
  if s.levelKnown (s.sp - 1) then
    .ok { s with
      sp := s.sp - 1
      stk := s.stk.set s.sp.toNat (Config.freeAddr s.draws)
      stkKnown := s.stkKnown.set s.sp.toNat false
      draws := s.draws + 1 }
  else .error .returnToUnknownLevel

/-! ### Free values and inputs -/

/-- Draw a free 4-bit value (logs 9, 11, 12). -/
def State.drawNibble (s : State) : Nibble × State := (Config.freeNibble s.draws, { s with draws := s.draws + 1 })

/-- Sample `TEST` (R48, D17): the oldest sample the host supplied, else a free bit (log 12). -/
def State.sampleTest (s : State) : Bool × State :=
  match s.testIn with
  | t :: ts => (t, { s with testIn := ts })
  | [] => (Config.freeTest s.draws, { s with draws := s.draws + 1 })

/-- Sample the input lines of ROM chip `k` (R43, D10): the oldest sample the host supplied, else a free value (log 12); of
a chip the platform lacks, a free value (R9, U12; log 11). Never tied to `ROMOUT`. -/
def State.sampleRomIn (s : State) (k : Nibble) : Nibble × State :=
  if s.romChipPopulated k then
    match s.romIn[k.toNat] with
    | v :: vs => (v, { s with romIn := s.romIn.set k.toNat vs })
    | [] => s.drawNibble
  else s.drawNibble

/-! ### Fetch -/

/-- The words of the instruction at the PC, the second fetched only if there is one (R102, R115). -/
def State.fetch (s : State) : Except Refusal (Byte × Byte) :=
  match s.romRead s.pc with
  | .error r => .error r
  | .ok w1 =>
    if twoWords w1 then
      match s.romRead (inc12 s.pc) with
      | .error r => .error r
      | .ok w2 => .ok (w1, w2)
    else .ok (w1, 0)

/-- The instruction at the PC (R114, R115); a reserved first word is refused (R110, R254). -/
def State.fetchInstr (s : State) : Except Refusal Instr :=
  match s.fetch with
  | .error r => .error r
  | .ok (w1, w2) =>
    match decodeWords w1 w2 with
    | some i => .ok i
    | none => .error (.reservedWord w1)

/-! ### Reset -/

/-- The index registers after a reset (R283): 0, or free values when the reset does not clear them (logs 4, 19). -/
def State.regsAfterReset (s : State) : Vector Nibble 16 :=
  if s.platform.resetClearsAll then Vector.replicate 16 0
  else Vector.ofFn fun r => Config.freeNibble (s.draws + r.val)

/-- The address stack after a reset (R282, R283): the PC, level 0, is `0x000`; the others are `0x000`, or free values when
the reset does not clear them (logs 4, 19). -/
def State.stkAfterReset (s : State) : Vector Addr 4 :=
  if s.platform.resetClearsAll then Vector.replicate 4 0
  else Vector.ofFn fun l => if l.val = 0 then 0 else Config.freeAddr (s.draws + l.val)

/-- The reset event (R280 to R284): the reset state replaces the state. Program text, platform and inputs are not the
machine's and stay; the RAM contents are unspecified anew; the request is used up (log 13). -/
def State.afterReset (s : State) : State :=
  { s with
    acc := 0
    cy := false
    regs := s.regsAfterReset
    dcl := 0
    sp := 0
    stk := s.stkAfterReset
    stkKnown := Vector.ofFn fun l => decide (l.val = 0) || s.platform.resetClearsAll
    romSel := 0
    romSelSent := false
    romOut := Vector.replicate 16 0
    ramSel := Vector.replicate 8 0
    ramSelSent := Vector.replicate 8 false
    ramCh := []
    ramSt := []
    ramOut := Vector.replicate 32 0
    resetIn := false
    draws := s.draws + 16
    ramEpoch := s.ramEpoch + 1 }

end Sys2Proof.Machine
end

