-- ==== Sys2Proof/Machine/Accumulator.lean ====
section
/-! DEFINITION. The meanings of the accumulator group, source Table 4 (spec/43_accumulator.md; summary R234). -/

namespace Sys2Proof.Machine

/-- `CLB` (R220). -/
def execClb (s : State) : Result := .next (s.setAccCy (0, false)).advance1

/-- `CLC` (R221). -/
def execClc (s : State) : Result := .next (s.setCy false).advance1

/-- `IAC` (R222). -/
def execIac (s : State) : Result := .next (s.setAccCy (increment s.acc)).advance1

/-- `CMC` (R223). -/
def execCmc (s : State) : Result := .next (s.setCy (!s.cy)).advance1

/-- `CMA` (R224). -/
def execCma (s : State) : Result := .next (s.setAcc (not4 s.acc)).advance1

/-- `RAL` (R225). -/
def execRal (s : State) : Result := .next (s.setAccCy (rotateLeft s.acc s.cy)).advance1

/-- `RAR` (R226). -/
def execRar (s : State) : Result := .next (s.setAccCy (rotateRight s.acc s.cy)).advance1

/-- `TCC` (R227). -/
def execTcc (s : State) : Result := .next (s.setAccCy (carryDigit s.cy, false)).advance1

/-- `DAC` (R228). -/
def execDac (s : State) : Result := .next (s.setAccCy (decrement s.acc)).advance1

/-- `TCS` (R229). -/
def execTcs (s : State) : Result := .next (s.setAccCy (carrySubtractDigit s.cy, false)).advance1

/-- `STC` (R230). -/
def execStc (s : State) : Result := .next (s.setCy true).advance1

/-- `DAA` (R231). -/
def execDaa (s : State) : Result := .next (s.setAccCy (decimalAdjust s.acc s.cy)).advance1

/-- `KBP` (R232). -/
def execKbp (s : State) : Result := .next (s.setAcc (keyboardCode s.acc)).advance1

/-- `DCL` (R233): the lower 3 bits of `ACC`. -/
def execDcl (s : State) : Result := .next (s.setDcl (s.acc.extractLsb' 0 3)).advance1

end Sys2Proof.Machine
end

