-- ==== Sys2Proof/Machine/Operands.lean ====
section
/-! DEFINITION. How an instruction names what it acts on: in-page targets (spec/20_memory.md R87), the condition of `JCN`
(spec/41_machine_2word.md R160), RAM banks (R70), and the target of a data access (R68, R72, spec/42_data_access.md R196). -/

namespace Sys2Proof.Machine

/-! ### Program addresses -/

/-- A program address formed from 8 bits: the page is that of `next` (R87, R106 (c)). -/
def pageTarget (next : Addr) (a8 : Byte) : Addr := next.extractLsb' 8 4 ++ a8

/-! ### The condition of `JCN` -/

/-- `c0`: the mask selects the `TEST` input (R160). -/
def testsInput (c : Nibble) : Bool := c.getLsbD 0

/-- R160: the selected tests are ORed, then inverted if `c3 = 1`; `test` is the logical value of `TEST`. -/
def jumpTaken (c : Nibble) (acc : Nibble) (cy test : Bool) : Bool :=
  let t := (c.getLsbD 2 && acc == 0) || (c.getLsbD 1 && cy) || (testsInput c && !test)
  t != c.getLsbD 3

/-! ### RAM banks -/

/-- R70: the command lines `CM-RAM0` to `CM-RAM3` that a `DCL` value asserts, by number. `CM-RAM0` exactly when
`DCL = 000`; otherwise `CM-RAM1` to `CM-RAM3` follow `DCL[0]` to `DCL[2]`. -/
def commandLines (dcl : BitVec 3) : List (BitVec 2) :=
  if dcl = 0 then [0]
  else (if dcl.getLsbD 0 then [1] else []) ++ (if dcl.getLsbD 1 then [2] else []) ++
    (if dcl.getLsbD 2 then [3] else [])

/-- `Banks(DCL)` (R70): in `direct` mode bank `i` is on line `i`; in `decoded` mode the one bank numbered by `DCL` (D8). -/
def banksOf (mode : BankMode) (dcl : BitVec 3) : List Bank :=
  match mode with
  | .direct => (commandLines dcl).map (BitVec.setWidth 3)
  | .decoded => [dcl]

/-- The banks the state's `DCL` reaches (R70). -/
def State.banks (s : State) : List Bank := banksOf s.platform.bankMode s.dcl

/-- `RAMSEL[b]` (R44). -/
def State.ramAddr (s : State) (b : Bank) : Byte := s.ramSel[b.toNat]

/-- An `SRC` has reached bank `b` since reset (R51). -/
def State.ramAddrSent (s : State) (b : Bank) : Bool := s.ramSelSent[b.toNat]

/-- Latch `a` in the RAM chips of bank `b` (R44, R69). -/
def State.latchRam (a : Byte) (s : State) (b : Bank) : State :=
  { s with
    ramSel := s.ramSel.set b.toNat a
    ramSelSent := s.ramSelSent.set b.toNat true }

/-- Latch the upper 4 bits of `a` in the ROM chips, whatever `DCL` holds (R41, R69). -/
def State.latchRom (s : State) (a : Byte) : State := { s with romSel := upper4 a, romSelSent := true }

/-- The effect of `SRC` on the latches (R69). -/
def State.sendAddress (s : State) (a : Byte) : State := s.banks.foldl (State.latchRam a) (s.latchRom a)

/-! ### The cells of RAM -/

/-- What a data access reaches in one bank: the bank and the address latched there (R72). -/
structure RamTarget where
  bank : Bank
  addr : Byte
  deriving DecidableEq, Repr

/-- The chip number `a[7:6]` (R68). -/
def RamTarget.chip (t : RamTarget) : Nat := (t.addr.extractLsb' 6 2).toNat

/-- The RAM register number `a[5:4]` (R68). -/
def RamTarget.register (t : RamTarget) : Nat := (t.addr.extractLsb' 4 2).toNat

/-- The character number `a[3:0]` (R68). -/
def RamTarget.character (t : RamTarget) : Nat := (lower4 t.addr).toNat

/-- The cell number of `RAMCH(b, c, r, ch)`: the source's SRC address formula (R68) within the bank. -/
def RamTarget.charCell (t : RamTarget) : Nat :=
  t.bank.toNat * 256 + t.chip * 64 + t.register * 16 + t.character

/-- The cell number of `RAMST(b, c, r, n)`; the character number plays no part (R64). -/
def RamTarget.statusCell (t : RamTarget) (n : BitVec 2) : Nat :=
  t.bank.toNat * 64 + t.chip * 16 + t.register * 4 + n.toNat

/-- The latch number of `RAMOUT(b, c)`; the RAM register and the character number play no part (R65). -/
def RamTarget.port (t : RamTarget) : Nat := t.bank.toNat * 4 + t.chip

theorem RamTarget.port_lt (t : RamTarget) : t.port < 32 := by
  have hb : t.bank.toNat < 8 := t.bank.isLt
  have hc : t.chip < 4 := (t.addr.extractLsb' 6 2).isLt
  unfold RamTarget.port
  omega

/-- The canonical form of written characters: cell numbers rising and below the size of the space. -/
def Chars.wf (size : Nat) (cs : Chars) : Bool := rising cs && cs.all fun c => decide (c.1 < size)

/-- The RAM chip a target is in is populated (R8). -/
def State.ramPopulated (s : State) (t : RamTarget) : Bool := decide (t.chip < s.platform.ramChipsPerBank)

/-- The main memory character in a cell: what was written, else the free value it has held since reset (R45, R51). -/
def State.charAt (s : State) (cell : Nat) : Nibble :=
  (lookupCell cell s.ramCh).getD (Config.unwrittenChar s.ramEpoch cell)

/-- The status character in a cell: what was written, else the free value it has held since reset (R46, R51). -/
def State.statusAt (s : State) (cell : Nat) : Nibble :=
  (lookupCell cell s.ramSt).getD (Config.unwrittenStatus s.ramEpoch cell)

/-- `MemRead(RAMCH(..), 1)` (R13); from a chip that is not populated, a free value (R9; log 11). -/
def State.readChar (s : State) (t : RamTarget) : Nibble × State :=
  if s.ramPopulated t then (s.charAt t.charCell, s) else s.drawNibble

/-- `MemRead(RAMST(.., n), 1)` (R13); from a chip that is not populated, a free value (R9; log 11). -/
def State.readStatus (n : BitVec 2) (s : State) (t : RamTarget) : Nibble × State :=
  if s.ramPopulated t then (s.statusAt (t.statusCell n), s) else s.drawNibble

/-- `MemWrite(RAMCH(..), 1, v)` (R13); to a chip that is not populated, nothing (R9). -/
def State.writeChar (v : Nibble) (s : State) (t : RamTarget) : State :=
  if s.ramPopulated t then { s with ramCh := putCell t.charCell v s.ramCh } else s

/-- `MemWrite(RAMST(.., n), 1, v)` (R13); to a chip that is not populated, nothing (R9). -/
def State.writeStatus (n : BitVec 2) (v : Nibble) (s : State) (t : RamTarget) : State :=
  if s.ramPopulated t then { s with ramSt := putCell (t.statusCell n) v s.ramSt } else s

/-- `MemWrite(RAMOUT(b, c), 1, v)` (R13); to a chip that is not populated, nothing (R9). -/
def State.writePort (v : Nibble) (s : State) (t : RamTarget) : State :=
  if s.ramPopulated t then { s with ramOut := s.ramOut.set t.port v t.port_lt } else s

/-- `MemWrite(ROMOUT(k), 1, v)` (R13, R42); to a chip that is not populated, nothing (R9, R182). -/
def State.writeRomPort (s : State) (k v : Nibble) : State :=
  if s.romChipPopulated k then { s with romOut := s.romOut.set k.toNat v } else s

/-! ### Target resolution -/

/-- The targets of a RAM access, one per selected bank (R72, R196). -/
def State.ramTargets (s : State) : List RamTarget := s.banks.map fun b => ⟨b, s.ramAddr b⟩

/-- R196: continue with the targets of a RAM access, unless a selected bank's latch was never written since reset
(refused, R51; logs 10, 20). -/
def State.atRam (s : State) (access : List RamTarget → Result) : Result :=
  match s.banks.find? fun b => !s.ramAddrSent b with
  | some b => .refused (.ramAddressNeverSent b)
  | none => access s.ramTargets

/-- A RAM write: in every selected bank, each at its own latched address (R71, R196), then `PC <- NEXT` (R197). -/
def State.storeRam (s : State) (write : State → RamTarget → State) : Result :=
  s.atRam fun ts => .next (ts.foldl write s).advance1

/-- The value a RAM read gives: the cell of the one target; with several banks selected, a free value (R71, U9; log 9). -/
def State.readOne (s : State) (read : State → RamTarget → Nibble × State) (ts : List RamTarget) : Nibble × State :=
  match ts with
  | [t] => read s t
  | _ => s.drawNibble

/-- A RAM read: the value read is handed to `use`, then `PC <- NEXT` (R74, R197). -/
def State.loadRam (s : State) (read : State → RamTarget → Nibble × State) (use : State → Nibble → State) : Result :=
  s.atRam fun ts => .next (use (s.readOne read ts).2 (s.readOne read ts).1).advance1

/-- R196: continue with the selected ROM chip's number, unless `ROMSEL` was never written since reset (refused, R51;
log 10). `DCL` plays no part. -/
def State.atRomPort (s : State) (access : Nibble → Result) : Result :=
  if s.romSelSent then access s.romSel else .refused .romPortNeverSelected

end Sys2Proof.Machine
end

