-- ==== Sys2Proof/Machine/DataAccess.lean ====
section
/-! DEFINITION. The meanings of the data access instructions, source Table 3 (spec/42_data_access.md). What all of them
leave alone is R197; where they reach is R196. -/

namespace Sys2Proof.Machine

/-- `WRM` (R180). -/
def execWrm (s : State) : Result := s.storeRam (State.writeChar s.acc)

/-- `WMP` (R181). -/
def execWmp (s : State) : Result := s.storeRam (State.writePort s.acc)

/-- `WRR` (R182). -/
def execWrr (s : State) : Result := s.atRomPort fun k => .next (s.writeRomPort k s.acc).advance1

/-- `WPM` (R183): with no program RAM on the platform no chip responds, and only `PC` changes (D13; log 14). -/
def execWpm (s : State) : Result := .next s.advance1

/-- `WR0` (R184). -/
def execWr0 (s : State) : Result := s.storeRam (State.writeStatus 0 s.acc)

/-- `WR1` (R185). -/
def execWr1 (s : State) : Result := s.storeRam (State.writeStatus 1 s.acc)

/-- `WR2` (R186). -/
def execWr2 (s : State) : Result := s.storeRam (State.writeStatus 2 s.acc)

/-- `WR3` (R187). -/
def execWr3 (s : State) : Result := s.storeRam (State.writeStatus 3 s.acc)

/-- `SBM` (R188). -/
def execSbm (s : State) : Result :=
  s.loadRam State.readChar fun t m => t.setAccCy (subWithBorrow t.acc m t.cy)

/-- `RDM` (R189). -/
def execRdm (s : State) : Result := s.loadRam State.readChar State.setAcc

/-- `RDR` (R190): the environment's value, not tied to `ROMOUT` (D10). -/
def execRdr (s : State) : Result :=
  s.atRomPort fun k => .next ((s.sampleRomIn k).2.setAcc (s.sampleRomIn k).1).advance1

/-- `ADM` (R191). -/
def execAdm (s : State) : Result :=
  s.loadRam State.readChar fun t m => t.setAccCy (addWithCarry t.acc m t.cy)

/-- `RD0` (R192). -/
def execRd0 (s : State) : Result := s.loadRam (State.readStatus 0) State.setAcc

/-- `RD1` (R193). -/
def execRd1 (s : State) : Result := s.loadRam (State.readStatus 1) State.setAcc

/-- `RD2` (R194). -/
def execRd2 (s : State) : Result := s.loadRam (State.readStatus 2) State.setAcc

/-- `RD3` (R195). -/
def execRd3 (s : State) : Result := s.loadRam (State.readStatus 3) State.setAcc

end Sys2Proof.Machine
end

