-- ==== Sys2Proof/Machine/OneWord.lean ====
section
/-! DEFINITION. The meanings of the one-word machine instructions, source Table 1 (spec/40_machine_1word.md). -/

namespace Sys2Proof.Machine

/-- `NOP` (R130). -/
def execNop (s : State) : Result := .next s.advance1

/-- `SRC RpP` (R131): the pair's 8 bits go to the ROM chips and to the RAM chips of the selected banks. -/
def execSrc (p : Pair) (s : State) : Result := .next (s.sendAddress (s.pair p)).advance1

/-- `FIN RpP` (R132): the ROM byte at `{(A0 + 1)[11:8], P[0]}`, read as data, goes to the pair; `PC` advances by one word. -/
def execFin (p : Pair) (s : State) : Result :=
  match s.romRead (pageTarget s.next1 (s.pair 0)) with
  | .ok d => .next (s.setPair p d).advance1
  | .error r => .refused r

/-- `JIN RpP` (R133). -/
def execJin (p : Pair) (s : State) : Result := .next (s.setPc (pageTarget s.next1 (s.pair p)))

/-- `INC Rr` (R134): modulo 16, `CY` untouched. -/
def execInc (r : Reg) (s : State) : Result := .next (s.setReg r (s.reg r + 1)).advance1

/-- `ADD Rr` (R135). -/
def execAdd (r : Reg) (s : State) : Result := .next (s.setAccCy (addWithCarry s.acc (s.reg r) s.cy)).advance1

/-- `SUB Rr` (R136). -/
def execSub (r : Reg) (s : State) : Result := .next (s.setAccCy (subWithBorrow s.acc (s.reg r) s.cy)).advance1

/-- `LD Rr` (R137). -/
def execLd (r : Reg) (s : State) : Result := .next (s.setAcc (s.reg r)).advance1

/-- `XCH Rr` (R138). -/
def execXch (r : Reg) (s : State) : Result := .next ((s.setAcc (s.reg r)).setReg r s.acc).advance1

/-- `BBL d` (R139): the newly selected level already holds the return address, so `PC` is not advanced. -/
def execBbl (d : Nibble) (s : State) : Result :=
  match s.returnFromCall with
  | .ok t => .next (t.setAcc d)
  | .error f => .fault f

/-- `LDM d` (R140). -/
def execLdm (d : Nibble) (s : State) : Result := .next (s.setAcc d).advance1

end Sys2Proof.Machine
end

