-- ==== Sys2Proof/Machine/TwoWord.lean ====
section
/-! DEFINITION. The meanings of the two-word machine instructions, source Table 2 (spec/41_machine_2word.md). -/

namespace Sys2Proof.Machine

/-- `JCN`'s jump once `TEST` is known: to the page of `NEXT`, or on to `NEXT` (R160). -/
def State.branchOn (s : State) (taken : Bool) (a8 : Byte) : State :=
  s.setPc (if taken then pageTarget s.next2 a8 else s.next2)

/-- `JCN c, a8` (R160): `TEST` is sampled exactly when the mask selects it (R48). -/
def execJcn (c : Nibble) (a8 : Byte) (s : State) : Result :=
  if testsInput c then .next (s.sampleTest.2.branchOn (jumpTaken c s.acc s.cy s.sampleTest.1) a8)
  else .next (s.branchOn (jumpTaken c s.acc s.cy true) a8)

/-- `FIM RpP, d8` (R161). -/
def execFim (p : Pair) (d8 : Byte) (s : State) : Result := .next (s.setPair p d8).advance2

/-- `JUN a12` (R162). -/
def execJun (a12 : Addr) (s : State) : Result := .next (s.setPc a12)

/-- `JMS a12` (R163): the return address is `NEXT`. -/
def execJms (a12 : Addr) (s : State) : Result := .next (s.call s.next2 a12)

/-- `ISZ Rr, a8` (R164): the jump is taken when the incremented register is NOT zero; `CY` untouched. -/
def execIsz (r : Reg) (a8 : Byte) (s : State) : Result :=
  .next ((s.setReg r (s.reg r + 1)).branchOn (s.reg r + 1 != 0) a8)

end Sys2Proof.Machine
end

