-- ==== Sys2Proof/Machine/Step.lean ====
section
/-! DEFINITION. One step (spec/30_encoding.md R115): fetch, decode and execute one whole instruction (R17, D18), unless the
host asserts reset, which wins (R253, R280). -/

namespace Sys2Proof.Machine

/-- R115: execute the instruction at the PC; an instruction that cannot be fetched is refused. A reset that is asserted
replaces the state instead (R280; log 13). -/
def step (s : State) : Host.Outcome State Fault Refusal :=
  if s.resetIn then .next s.afterReset
  else
    match s.fetchInstr with
    | .ok i => exec i s
    | .error r => .refused r

/-- The state with an instruction of the opcode table, given as one number (log 17), placed where the next step fetches:
its two words at the PC and the address after it, in chips that are populated, with no reset asserted. It stands for the
host's loading of a program (R267 (a); log 2). -/
def State.withFetchWord (s : State) (nbits w : Nat) : State :=
  { s with
    rom := Memory.write (Memory.write s.rom s.pc (tableWords nbits w).1) s.next1 (tableWords nbits w).2
    resetIn := false
    platform := { s.platform with
      romChips := max s.platform.romChips (max (s.pc.toNat / 256 + 1) (s.next1.toNat / 256 + 1)) } }

end Sys2Proof.Machine
end

