-- ==== Sys2Proof/Machine/HostMoves.lean ====
section
/-! DEFINITION. What the host may do between instructions (spec/60_exceptions.md R267), and the platform it may choose before
a run (spec/00_scope.md R8). The host has no other move: it reads or writes no register, stack level, latch or RAM cell. -/

namespace Sys2Proof.Machine

/-- R267 (a): supply one word of program text, before the run. -/
def State.loadRom (s : State) (a : Addr) (w : Byte) : State := { s with rom := Memory.write s.rom a w }

/-- R267 (a): supply consecutive words of program text. -/
def State.loadProgram (s : State) (a : Addr) : List Byte → State
  | [] => s
  | w :: ws => (s.loadRom a w).loadProgram (inc12 a) ws

/-- R267 (b): drive `TEST` with these values at its next samplings. -/
def State.supplyTest (s : State) (ts : List Bool) : State := { s with testIn := s.testIn ++ ts }

/-- R267 (c): drive the input lines of ROM chip `k` with these values at its next samplings. -/
def State.supplyRomIn (s : State) (k : Nibble) (vs : List Nibble) : State :=
  { s with romIn := s.romIn.set k.toNat (s.romIn[k.toNat] ++ vs) }

/-- R267 (d): read `ROMOUT[k]`. -/
def State.romPort (s : State) (k : Nibble) : Nibble := s.romOut[k.toNat]

/-- R267 (d): read `RAMOUT[b][c]`. -/
def State.ramPort (s : State) (b : Bank) (c : BitVec 2) : Nibble :=
  s.ramOut[b.toNat * 4 + c.toNat]'(by
    have hb : b.toNat < 8 := b.isLt
    have hc : c.toNat < 4 := c.isLt
    omega)

/-- R267 (e): assert reset (R280; log 13). -/
def State.assertReset (s : State) : State := { s with resetIn := true }

/-- The machine right after reset on a platform of the host's choice, with no program text supplied (R8, R280 to R284). -/
def State.bootOn (p : Platform) : State := ({ State.reset with platform := p }).afterReset

end Sys2Proof.Machine
end

