-- ==== Sys2Proof/Safety.lean ====
section
/-! DEFINITION. The terms claims are made in: the invariant of the machine, the end of a run, program addresses as numbers,
and what it means that a state agrees with another everywhere but in named places. -/

namespace Sys2Proof.Machine

/-! ### The invariant -/

/-- What holds of the machine from reset on, whatever the program and the platform: program text and RAM are in their
canonical forms and inside their spaces (R40, R45, R46), only populated RAM chips of existing banks hold written
characters (R8, R9), the platform is legal (R8), the level that is the PC holds a specified address (R37, R51), and a
latch of a RAM bank is written only with `ROMSEL` (R69) and only in a bank that exists (R70). -/
structure State.Inv (s : State) : Prop where
  platformLegal : s.platform.legal = true
  romCanonical : Memory.wf s.rom = true
  charsCanonical : Chars.wf (s.platform.nbanks * 256) s.ramCh = true
  statusCanonical : Chars.wf (s.platform.nbanks * 64) s.ramSt = true
  charsPopulated : ∀ c ∈ s.ramCh, c.1 % 256 / 64 < s.platform.ramChipsPerBank
  statusPopulated : ∀ c ∈ s.ramSt, c.1 % 64 / 16 < s.platform.ramChipsPerBank
  pcKnown : s.levelKnown s.sp = true
  ramLatchWithRom : ∀ b, s.ramAddrSent b = true → s.romSelSent = true
  ramLatchInBank : ∀ b, s.ramAddrSent b = true → b.toNat < s.platform.nbanks

/-! ### The end of a run -/

/-- `HALT_CONVENTION`, default (R262, D12): the instruction at the PC is a `JUN` to its own address. A property of the
state; the chip goes on executing the jump. -/
def State.halted (s : State) : Bool := !s.resetIn && decide (s.fetchInstr = .ok (.jun s.pc))

/-- A step that ends in neither a fault nor a refusal. -/
def State.stepSafe (s : State) : Prop := ∃ t, step s = .next t

/-! ### Program addresses as numbers -/

/-- `A0 + n` modulo 4096, `A0` the PC (R16, R165). -/
def State.pcPlus (s : State) (n : Nat) : Addr := BitVec.ofNat 12 (s.pc.toNat + n)

/-- The address with the page of `A0 + n` and the low 8 bits `a8` (R165). -/
def State.inPage (s : State) (n : Nat) (a8 : Byte) : Addr :=
  BitVec.ofNat 12 ((s.pcPlus n).toNat / 256 * 256 + a8.toNat)

/-! ### Agreement of states -/

/-- `t` is `s` but for the PC: every other field is the same, and so is every stack level but the active one. -/
def State.SameButPc (s t : State) : Prop :=
  { t with stk := s.stk } = s ∧ ∀ l, l ≠ s.sp → t.level l = s.level l

/-- `t` is `s` but for `ACC` and the PC. -/
def State.SameButAccPc (s t : State) : Prop := s.SameButPc { t with acc := s.acc }

/-- `t` is `s` but for `ACC`, `CY` and the PC. -/
def State.SameButAccCyPc (s t : State) : Prop := s.SameButPc { t with acc := s.acc, cy := s.cy }

/-- `t` is `s` but for the index registers that `dest` names and the PC. -/
def State.SameButRegsPc (s t : State) (dest : Reg → Prop) : Prop :=
  s.SameButPc { t with regs := s.regs } ∧ ∀ r, ¬ dest r → t.reg r = s.reg r

/-- Every bank `DCL` selects has latched an address since reset: the premise under which a RAM access runs (R196). -/
def State.RamReady (s : State) : Prop := ∀ b ∈ s.banks, s.ramAddrSent b = true

/-- Exactly one bank is selected and it has latched the address `a` since reset (R196). -/
def State.OneBank (s : State) (b : Bank) (a : Byte) : Prop :=
  s.banks = [b] ∧ s.ramAddrSent b = true ∧ s.ramAddr b = a

/-- A cell is the one that a RAM access reaches in some selected bank whose chip is populated (R71, R72, R9); `cellOf`
computes the cell from the bank and the address latched there. -/
def State.Reaches (s : State) (cellOf : RamTarget → Nat) (cell : Nat) : Prop :=
  ∃ b ∈ s.banks, s.ramPopulated ⟨b, s.ramAddr b⟩ = true ∧ cell = cellOf ⟨b, s.ramAddr b⟩

/-- An outcome with its next state replaced; a fault and a refusal stay. -/
def mapNext (f : State → State) : Result → Result
  | .next t => .next (f t)
  | .fault x => .fault x
  | .refused r => .refused r

end Sys2Proof.Machine
end

