-- ==== Sys2Proof/Certificates/Slice0/Obligations.lean ====
section
/-! DEFINITION. The statements about the model, from the numbered rules of the spec. Each says in its docstring which rule or
section it formalises and, where it rests on a decision of the spec or a choice of the model, which. -/

open Sys2Proof Sys2Proof.Machine

/-! ### Encoding -/

/-- Decoding an encoded instruction gives it back, with every operand at every value, and leaves the words after it
(spec/30_encoding.md sections 2 to 4 and 7). -/
def Obligations.DecodeOfEncode : Prop :=
  ∀ (i : Instr) (rest : List Byte), decode (encode i ++ rest) = .ok (i, rest)

/-- Each string of words has one reading: what decodes to an instruction begins with exactly that instruction's words
(spec/30_encoding.md sections 2 to 4 and 7). -/
def Obligations.EncodeOfDecode : Prop :=
  ∀ (ws rest : List Byte) (i : Instr), decode ws = .ok (i, rest) → ws = encode i ++ rest

/-- The decoding procedure of R114 agrees with the opcode table of R108: a first word that decodes is of exactly one row,
with the instruction's mnemonic and length; a first word that does not is of none. -/
def Obligations.DecoderAgreesWithOpcodeTable : Prop :=
  ∀ w1 w2 : Byte,
    match decodeWords w1 w2 with
    | some i => ∃ row, rowsOf w1 = [row] ∧ row.mnemonic = i.mnemonic ∧ row.words = i.words
    | none => rowsOf w1 = []

/-- The reserved first words are `01` to `0F`, `FE` and `FF` (list of R110, general knowledge), and the step refuses them by
name: the spec's decision D14 (log 15), neither a `NOP` nor a trap. -/
def Obligations.ReservedWordsRefused : Prop :=
  (∀ w1 w2 : Byte, decodeWords w1 w2 = none ↔ (1 ≤ w1.toNat ∧ w1.toNat ≤ 15) ∨ 254 ≤ w1.toNat) ∧
  ∀ s : State, s.resetIn = false → s.romChipPopulated (s.pc.extractLsb' 8 4) = true →
    (1 ≤ (s.romByte s.pc).toNat ∧ (s.romByte s.pc).toNat ≤ 15) ∨ 254 ≤ (s.romByte s.pc).toNat →
    step s = .refused (.reservedWord (s.romByte s.pc))

/-- R102: the length is a function of the first word alone, by `OPR` and `OPA[0]`, and equivalently by the two mask tests. -/
def Obligations.LengthFromFirstWord : Prop :=
  ∀ (w1 w2 : Byte) (i : Instr), decodeWords w1 w2 = some i →
    (i.words = 1 ∨ i.words = 2) ∧
    (i.words = 2 ↔ w1.toNat / 16 ∈ [1, 4, 5, 7] ∨ (w1.toNat / 16 = 2 ∧ w1.toNat % 2 = 0)) ∧
    (i.words = 2 ↔ (w1 &&& 0xF0#8) ∈ [0x10#8, 0x40#8, 0x50#8, 0x70#8] ∨ (w1 &&& 0xF1#8) = 0x20#8) ∧
    (encode i).length = i.words

/-- One word of each format and group, written out from R104 and R108, decodes to the instruction it stands for. -/
def Obligations.WrittenOutWordsDecode : Prop :=
  decode [0b00000000#8] = .ok (.nop, []) ∧
  decode [0b00010100#8, 0b00101010#8] = .ok (.jcn 0b0100 0x2A, []) ∧
  decode [0b00100100#8, 0b10010011#8] = .ok (.fim 2 0x93, []) ∧
  decode [0b00100101#8] = .ok (.src 2, []) ∧
  decode [0b00110010#8] = .ok (.fin 1, []) ∧
  decode [0b00110111#8] = .ok (.jin 3, []) ∧
  decode [0b01000011#8, 0b10100101#8] = .ok (.jun 0x3A5, []) ∧
  decode [0b01110100#8, 0b00010000#8] = .ok (.isz 4 0x10, []) ∧
  decode [0b10000010#8] = .ok (.add 2, []) ∧
  decode [0b11000101#8] = .ok (.bbl 5, []) ∧
  decode [0b11101000#8] = .ok (.sbm, []) ∧
  decode [0b11111101#8] = .ok (.dcl, [])

/-! ### The step and reset -/

/-- R115: when the words at the PC decode to a (well-formed) instruction, the step executes exactly that instruction; no
reset asserted, the chips that hold its words populated (D9). One step is one whole instruction by the spec's decision
D18. The PC still is the address of the first word when the instruction executes. -/
def Obligations.StepRunsDecodedInstruction : Prop :=
  ∀ (s : State) (i : Instr) (rest : List Byte), s.resetIn = false →
    s.romChipPopulated (s.pc.extractLsb' 8 4) = true →
    (i.words = 2 → s.romChipPopulated ((inc12 s.pc).extractLsb' 8 4) = true) →
    decode [s.romByte s.pc, s.romByte (inc12 s.pc)] = .ok (i, rest) →
    i.wellFormed = true ∧ step s = exec i s

/-- The spec's decision D9 (R9, log 11): a fetch, or a `FIN` data read, from a ROM address whose chip the platform lacks is
refused by name. The second word is fetched only for a two-word instruction. -/
def Obligations.MissingRomRefused : Prop :=
  (∀ s : State, s.resetIn = false → s.platform.romChips ≤ s.pc.toNat / 256 →
    step s = .refused (.romNotPopulated s.pc)) ∧
  (∀ s : State, s.resetIn = false → s.pc.toNat / 256 < s.platform.romChips →
    s.platform.romChips ≤ (s.pcPlus 1).toNat / 256 → twoWords (s.romByte s.pc) = true →
    step s = .refused (.romNotPopulated (s.pcPlus 1))) ∧
  ∀ (s : State) (p : Pair), s.platform.romChips ≤ (s.pcPlus 1).toNat / 256 →
    exec (.fin p) s = .refused (.romNotPopulated (s.inPage 1 (s.pair 0)))

/-- The reset event (R280) replaces the state, by the spec's decisions D1, D2, D3, D6, D7: program text, platform and
inputs stay, everything else takes its reset value; index registers and inactive levels are cleared when
`RESET_CLEARS_ALL`, and otherwise the inactive levels hold no specified address. That it arrives through `resetIn` is the
model's choice (log 13). -/
def Obligations.ResetEventReplacesState : Prop :=
  ∀ s : State, s.resetIn = true → ∃ t, step s = .next t ∧
    t.acc = 0 ∧ t.cy = false ∧ t.dcl = 0 ∧ t.sp = 0 ∧ t.pc = 0 ∧ t.levelKnown 0 = true ∧
    t.romSelSent = false ∧ (∀ b, t.ramAddrSent b = false) ∧
    (∀ k, t.romPort k = 0) ∧ (∀ b c, t.ramPort b c = 0) ∧ t.ramCh = [] ∧ t.ramSt = [] ∧ t.resetIn = false ∧
    t.rom = s.rom ∧ t.platform = s.platform ∧ t.testIn = s.testIn ∧ t.romIn = s.romIn ∧
    (s.platform.resetClearsAll = true →
      (∀ r, t.reg r = 0) ∧ ∀ l, t.level l = 0 ∧ t.levelKnown l = true) ∧
    (s.platform.resetClearsAll = false → ∀ l, l ≠ 0 → t.levelKnown l = false)

/-- R281: after reset `DCL = 000`, on every platform; in `direct` mode this selects RAM bank 0 through `CM-RAM0`, and so
does every state whose `DCL` still has that value: bank 0 needs no `DCL` instruction. -/
def Obligations.ResetSelectsBankZero : Prop :=
  State.reset.dcl = 0b000#3 ∧ (∀ p, (State.bootOn p).dcl = 0b000#3) ∧
  ∀ s : State, s.platform.bankMode = .direct → s.dcl = 0b000#3 → commandLines s.dcl = [0] ∧ s.banks = [0]

/-- `State.reset` holds the values the spec decided for the reference platform (decisions D2, D3, D6, D7: R282 to R284), no
program text and no input (the model's choices, logs 1, 12, 13), and a reset of it changes no register and no port. -/
def Obligations.ResetStateValues : Prop :=
  State.reset.acc = 0 ∧ State.reset.cy = false ∧ State.reset.sp = 0 ∧ State.reset.pc = 0x000#12 ∧
  (∀ r, State.reset.reg r = 0) ∧ (∀ l, State.reset.level l = 0 ∧ State.reset.levelKnown l = true) ∧
  (∀ k, State.reset.romPort k = 0) ∧ (∀ b c, State.reset.ramPort b c = 0) ∧
  State.reset.romSelSent = false ∧ (∀ b, State.reset.ramAddrSent b = false) ∧
  State.reset.ramCh = [] ∧ State.reset.ramSt = [] ∧ State.reset.platform = Platform.reference ∧
  State.reset.rom = [] ∧ State.reset.testIn = [] ∧ (∀ k : Nibble, State.reset.romIn[k.toNat] = []) ∧
  State.reset.resetIn = false ∧
  { State.reset.afterReset with draws := 0, ramEpoch := 0 } = State.reset

/-! ### Pairs and banks -/

/-- R33: a pair is a view of two index registers, the even one its upper 4 bits; a write to either is seen by the next read
of the pair and the other way round. -/
def Obligations.PairIsTwoRegisters : Prop :=
  (∀ (s : State) (p : Pair), (s.pair p).toNat =
    (s.reg (BitVec.ofNat 4 (2 * p.toNat))).toNat * 16 + (s.reg (BitVec.ofNat 4 (2 * p.toNat + 1))).toNat) ∧
  (∀ (s : State) (p : Pair) (d : Byte) (r : Reg), (s.setPair p d).reg r =
    if r.toNat = 2 * p.toNat then BitVec.ofNat 4 (d.toNat / 16)
    else if r.toNat = 2 * p.toNat + 1 then BitVec.ofNat 4 (d.toNat % 16) else s.reg r) ∧
  (∀ (s : State) (r : Reg) (v : Nibble) (p : Pair), ((s.setReg r v).pair p).toNat =
    if r.toNat = 2 * p.toNat then v.toNat * 16 + (s.pair p).toNat % 16
    else if r.toNat = 2 * p.toNat + 1 then (s.pair p).toNat / 16 * 16 + v.toNat else (s.pair p).toNat)

/-- The table of R70: which banks each value of `DCL` reaches in `direct` mode; in `decoded` mode the bank numbered by
`DCL`, the spec's decision D8. Never none. -/
def Obligations.BanksFollowDcl : Prop :=
  banksOf .direct 0b000 = [0] ∧ banksOf .direct 0b001 = [1] ∧ banksOf .direct 0b010 = [2] ∧
  banksOf .direct 0b011 = [1, 2] ∧ banksOf .direct 0b100 = [3] ∧ banksOf .direct 0b101 = [1, 3] ∧
  banksOf .direct 0b110 = [2, 3] ∧ banksOf .direct 0b111 = [1, 2, 3] ∧
  (∀ d, banksOf .decoded d = [d]) ∧ ∀ m d, banksOf m d ≠ []

/-! ### One-word machine instructions -/

/-- R130: `NOP` is the word `00` and no other, and only advances the PC. -/
def Obligations.NopOnlyAdvances : Prop :=
  encode .nop = [0x00#8] ∧ (∀ w1 w2, decodeWords w1 w2 = some .nop ↔ w1 = 0x00#8) ∧
  ∀ s : State, ∃ t, exec .nop s = .next t ∧ t.pc = s.pcPlus 1 ∧ s.SameButPc t

/-- R183 as the spec's decision D13 leaves it (log 14): with no program RAM on the platform `WPM` only advances the PC. -/
def Obligations.WpmOnlyAdvances : Prop :=
  encode .wpm = [0xE3#8] ∧ ∀ s : State, ∃ t, exec .wpm s = .next t ∧ t.pc = s.pcPlus 1 ∧ s.SameButPc t

/-- R131, R69: `SRC` sends the pair to `ROMSEL` (its upper 4 bits, whatever `DCL` holds) and to `RAMSEL` of every bank `DCL`
selects (several at once: the spec's decision D8); the other banks keep their latch. Nothing else changes but the PC. -/
def Obligations.SrcLatchesAddress : Prop :=
  ∀ (p : Pair) (s : State), encode (.src p) = [BitVec.ofNat 8 (0x21 + 2 * p.toNat)] ∧
  ∃ t, exec (.src p) s = .next t ∧
    t.romSel = BitVec.ofNat 4 ((s.pair p).toNat / 16) ∧ t.romSelSent = true ∧
    (∀ b, b ∈ s.banks → t.ramAddr b = s.pair p ∧ t.ramAddrSent b = true) ∧
    (∀ b, b ∉ s.banks → t.ramAddr b = s.ramAddr b ∧ t.ramAddrSent b = s.ramAddrSent b) ∧
    t.pc = s.pcPlus 1 ∧
    s.SameButPc { t with romSel := s.romSel, romSelSent := s.romSelSent, ramSel := s.ramSel,
                         ramSelSent := s.ramSelSent }

/-- R132: `FIN` loads the pair with the ROM byte at the page of `A0 + 1` and the OLD pair 0, and advances the PC by ONE
word, though it takes two cycles; from a populated chip. -/
def Obligations.FinLoadsRomByte : Prop :=
  ∀ (p : Pair) (s : State), encode (.fin p) = [BitVec.ofNat 8 (0x30 + 2 * p.toNat)] ∧
  Instr.words (.fin p) = 1 ∧ Instr.cycles (.fin p) = 2 ∧
  ((s.pcPlus 1).toNat / 256 < s.platform.romChips →
    ∃ t, exec (.fin p) s = .next t ∧
      t.reg (BitVec.ofNat 4 (2 * p.toNat)) = BitVec.ofNat 4 ((s.romByte (s.inPage 1 (s.pair 0))).toNat / 16) ∧
      t.reg (BitVec.ofNat 4 (2 * p.toNat + 1)) = BitVec.ofNat 4 ((s.romByte (s.inPage 1 (s.pair 0))).toNat % 16) ∧
      t.pc = s.pcPlus 1 ∧ s.SameButRegsPc t fun r => r.toNat / 2 = p.toNat)

/-- R133: `JIN` jumps within the page of `A0 + 1` to the address in the pair; the stack pointer does not move. -/
def Obligations.JinJumpsInPage : Prop :=
  ∀ (p : Pair) (s : State), encode (.jin p) = [BitVec.ofNat 8 (0x31 + 2 * p.toNat)] ∧
  ∃ t, exec (.jin p) s = .next t ∧ t.pc = s.inPage 1 (s.pair p) ∧ s.SameButPc t

/-- R134: `INC` adds one modulo 16; `CY` and the pair's other register are unchanged. -/
def Obligations.IncWraps : Prop :=
  ∀ (r : Reg) (s : State), encode (.inc r) = [BitVec.ofNat 8 (0x60 + r.toNat)] ∧
  ∃ t, exec (.inc r) s = .next t ∧ (t.reg r).toNat = ((s.reg r).toNat + 1) % 16 ∧
    t.pc = s.pcPlus 1 ∧ s.SameButRegsPc t fun q => q = r

/-- R135: `ADD` adds the register and the old carry; the new carry is set when the sum is 16 or more. -/
def Obligations.AddWithCarryIn : Prop :=
  ∀ (r : Reg) (s : State), encode (.add r) = [BitVec.ofNat 8 (0x80 + r.toNat)] ∧
  ∃ t, exec (.add r) s = .next t ∧
    t.acc.toNat = (s.acc.toNat + (s.reg r).toNat + s.cy.toNat) % 16 ∧
    (t.cy = true ↔ 16 ≤ s.acc.toNat + (s.reg r).toNat + s.cy.toNat) ∧
    t.pc = s.pcPlus 1 ∧ s.SameButAccCyPc t

/-- R136 with the borrow reading of its corner cases: `SUB` takes the register and the old carry away modulo 16; the new
carry is set exactly when there was no borrow. -/
def Obligations.SubWithBorrowIn : Prop :=
  ∀ (r : Reg) (s : State), encode (.sub r) = [BitVec.ofNat 8 (0x90 + r.toNat)] ∧
  ∃ t, exec (.sub r) s = .next t ∧
    t.acc.toNat = (s.acc.toNat + (15 - (s.reg r).toNat) + (1 - s.cy.toNat)) % 16 ∧
    (t.acc.toNat : Int) = ((s.acc.toNat : Int) - (s.reg r).toNat - s.cy.toNat) % 16 ∧
    (t.cy = true ↔ 16 ≤ s.acc.toNat + (15 - (s.reg r).toNat) + (1 - s.cy.toNat)) ∧
    (t.cy = true ↔ (s.reg r).toNat + s.cy.toNat ≤ s.acc.toNat) ∧
    t.pc = s.pcPlus 1 ∧ s.SameButAccCyPc t

/-- R137, R138, R140: `LD` and `LDM` load `ACC`, `XCH` exchanges it with a register; `CY` is unchanged. -/
def Obligations.LoadsAndExchange : Prop :=
  (∀ (r : Reg) (s : State), encode (.ld r) = [BitVec.ofNat 8 (0xA0 + r.toNat)] ∧
    ∃ t, exec (.ld r) s = .next t ∧ t.acc = s.reg r ∧ t.pc = s.pcPlus 1 ∧ s.SameButAccPc t) ∧
  (∀ (d : Nibble) (s : State), encode (.ldm d) = [BitVec.ofNat 8 (0xD0 + d.toNat)] ∧
    ∃ t, exec (.ldm d) s = .next t ∧ t.acc = d ∧ t.pc = s.pcPlus 1 ∧ s.SameButAccPc t) ∧
  ∀ (r : Reg) (s : State), encode (.xch r) = [BitVec.ofNat 8 (0xB0 + r.toNat)] ∧
    ∃ t, exec (.xch r) s = .next t ∧ t.acc = s.reg r ∧ t.reg r = s.acc ∧ t.pc = s.pcPlus 1 ∧
      s.SameButRegsPc { t with acc := s.acc } fun q => q = r

/-- `BBL` (section 2 of spec/40_machine_1word.md) into a level that holds a specified address: `SP` goes down by one modulo 4,
the PC is what that level holds, `ACC` takes the immediate. The level left holds no specified address afterwards, the
spec's decision D5 (log 8); nothing is said of its value. -/
def Obligations.BblReturns : Prop :=
  ∀ (d : Nibble) (s : State), encode (.bbl d) = [BitVec.ofNat 8 (0xC0 + d.toNat)] ∧
  (s.levelKnown (s.sp - 1) = true →
    ∃ t, exec (.bbl d) s = .next t ∧ t.sp.toNat = (s.sp.toNat + 3) % 4 ∧ t.pc = s.level t.sp ∧ t.acc = d ∧
      t.levelKnown s.sp = false ∧
      (∀ l, l ≠ s.sp → t.level l = s.level l ∧ t.levelKnown l = s.levelKnown l) ∧
      { t with sp := s.sp, acc := s.acc, stk := s.stk, stkKnown := s.stkKnown, draws := s.draws } = s)

/-- The spec's decision D5 (log 8): a `BBL` that would make a never-written or abandoned level the PC is a fault; no other
instruction ever faults, the hardware having no exception (R250). -/
def Obligations.OnlyUnknownReturnFaults : Prop :=
  (∀ (d : Nibble) (s : State), s.levelKnown (s.sp - 1) = false → exec (.bbl d) s = .fault .returnToUnknownLevel) ∧
  ∀ (i : Instr) (s : State) (f : Fault), exec i s = .fault f →
    (∃ d, i = .bbl d) ∧ s.levelKnown (s.sp - 1) = false

/-! ### Two-word machine instructions -/

/-- R160: `JCN` jumps, within the page of `A0 + 2`, when (`c2` and `ACC = 0`) or (`c1` and `CY = 1`) or (`c0` and
`TEST = 0`), inverted by `c3`. `TEST` is sampled exactly when `c0 = 1` (the spec's decision D17): the oldest value the
host supplied, else the free value of this draw (log 12). -/
def Obligations.JcnJumpsOnCondition : Prop :=
  ∀ (c : Nibble) (a8 : Byte) (s : State), encode (.jcn c a8) = [BitVec.ofNat 8 (0x10 + c.toNat), a8] ∧
  (c.getLsbD 0 = false → ∃ t, exec (.jcn c a8) s = .next t ∧ s.SameButPc t ∧
    t.pc = if (((c.getLsbD 2 = true ∧ s.acc = 0) ∨ (c.getLsbD 1 = true ∧ s.cy = true)) ↔ c.getLsbD 3 = false)
      then s.inPage 2 a8 else s.pcPlus 2) ∧
  (∀ (v : Bool) (vs : List Bool), c.getLsbD 0 = true → s.testIn = v :: vs →
    ∃ t, exec (.jcn c a8) s = .next t ∧ t.testIn = vs ∧ s.SameButPc { t with testIn := s.testIn } ∧
    t.pc = if (((c.getLsbD 2 = true ∧ s.acc = 0) ∨ (c.getLsbD 1 = true ∧ s.cy = true) ∨ v = false) ↔
        c.getLsbD 3 = false) then s.inPage 2 a8 else s.pcPlus 2) ∧
  (c.getLsbD 0 = true → s.testIn = [] →
    ∃ t, exec (.jcn c a8) s = .next t ∧ t.draws = s.draws + 1 ∧ s.SameButPc { t with draws := s.draws } ∧
    t.pc = if (((c.getLsbD 2 = true ∧ s.acc = 0) ∨ (c.getLsbD 1 = true ∧ s.cy = true) ∨
        Config.freeTest s.draws = false) ↔ c.getLsbD 3 = false) then s.inPage 2 a8 else s.pcPlus 2)

/-- R161: `FIM` loads the pair with the second word, its upper half to the even register. -/
def Obligations.FimLoadsPair : Prop :=
  ∀ (p : Pair) (d8 : Byte) (s : State), encode (.fim p d8) = [BitVec.ofNat 8 (0x20 + 2 * p.toNat), d8] ∧
  ∃ t, exec (.fim p d8) s = .next t ∧
    t.reg (BitVec.ofNat 4 (2 * p.toNat)) = BitVec.ofNat 4 (d8.toNat / 16) ∧
    t.reg (BitVec.ofNat 4 (2 * p.toNat + 1)) = BitVec.ofNat 4 (d8.toNat % 16) ∧
    t.pc = s.pcPlus 2 ∧ s.SameButRegsPc t fun r => r.toNat / 2 = p.toNat

/-- R162: `JUN` replaces all 12 bits of the PC; `SP` does not move. -/
def Obligations.JunJumpsAnywhere : Prop :=
  ∀ (a : Addr) (s : State),
    encode (.jun a) = [BitVec.ofNat 8 (0x40 + a.toNat / 256), BitVec.ofNat 8 (a.toNat % 256)] ∧
    ∃ t, exec (.jun a) s = .next t ∧ t.pc = a ∧ s.SameButPc t

/-- `JMS` (spec/41_machine_2word.md): the old level keeps `A0 + 2`, `SP` goes up by one modulo 4, the new level takes the
target and is the PC; the other two levels are unchanged, and so is everything else. Executed at every depth. -/
def Obligations.JmsCalls : Prop :=
  ∀ (a : Addr) (s : State),
    encode (.jms a) = [BitVec.ofNat 8 (0x50 + a.toNat / 256), BitVec.ofNat 8 (a.toNat % 256)] ∧
    ∃ t, exec (.jms a) s = .next t ∧ t.sp.toNat = (s.sp.toNat + 1) % 4 ∧ t.pc = a ∧ t.level s.sp = s.pcPlus 2 ∧
      t.levelKnown s.sp = true ∧ t.levelKnown t.sp = true ∧
      (∀ l, l ≠ s.sp → l ≠ t.sp → t.level l = s.level l ∧ t.levelKnown l = s.levelKnown l) ∧
      { t with sp := s.sp, stk := s.stk, stkKnown := s.stkKnown } = s

/-- R164: `ISZ` increments the register modulo 16 and jumps, within the page of `A0 + 2`, when the result is NOT zero. -/
def Obligations.IszJumpsUnlessZero : Prop :=
  ∀ (r : Reg) (a8 : Byte) (s : State), encode (.isz r a8) = [BitVec.ofNat 8 (0x70 + r.toNat), a8] ∧
  ∃ t, exec (.isz r a8) s = .next t ∧ (t.reg r).toNat = ((s.reg r).toNat + 1) % 16 ∧
    t.pc = (if (s.reg r).toNat = 15 then s.pcPlus 2 else s.inPage 2 a8) ∧ s.SameButRegsPc t fun q => q = r

/-! ### Data access instructions -/

/-- R180 with R196: `WRM` writes `ACC` to the main memory character at each selected bank's own latched address, in
populated chips (several banks and missing chips: the spec's decisions D8 and D9), and leaves every other character and
everything else unchanged. -/
def Obligations.WrmStoresCharacter : Prop :=
  encode .wrm = [0xE0#8] ∧
  ∀ s : State, s.RamReady → ∃ t, exec .wrm s = .next t ∧
    (∀ cell, s.Reaches RamTarget.charCell cell → t.charAt cell = s.acc) ∧
    (∀ cell, ¬ s.Reaches RamTarget.charCell cell → t.charAt cell = s.charAt cell) ∧
    t.pc = s.pcPlus 1 ∧ s.SameButPc { t with ramCh := s.ramCh }

/-- R181 with R196: `WMP` writes `ACC` to the output port of the latched chip of each selected bank, in populated chips; the
RAM register and character numbers play no part. Several banks and missing chips: the spec's decisions D8 and D9. -/
def Obligations.WmpDrivesRamPort : Prop :=
  encode .wmp = [0xE1#8] ∧
  ∀ s : State, s.RamReady → ∃ t, exec .wmp s = .next t ∧
    (∀ (b : Bank) (c : BitVec 2), t.ramPort b c =
      if b ∈ s.banks ∧ (s.ramAddr b).toNat / 64 = c.toNat ∧ c.toNat < s.platform.ramChipsPerBank
      then s.acc else s.ramPort b c) ∧
    t.pc = s.pcPlus 1 ∧ s.SameButPc { t with ramOut := s.ramOut }

/-- R182: `WRR` writes `ACC` to the output port of ROM chip `ROMSEL`, whatever `DCL` holds; to a chip the platform lacks,
nothing, the spec's decision D9. -/
def Obligations.WrrDrivesRomPort : Prop :=
  encode .wrr = [0xE2#8] ∧
  ∀ s : State, s.romSelSent = true → ∃ t, exec .wrr s = .next t ∧
    (∀ k, t.romPort k = if k = s.romSel ∧ k.toNat < s.platform.romChips then s.acc else s.romPort k) ∧
    t.pc = s.pcPlus 1 ∧ s.SameButPc { t with romOut := s.romOut }

/-- R184 to R187 with R196: `WR0` to `WR3` write `ACC` to the status character of that number at each selected bank's
latched chip and RAM register, in populated chips; main memory and every other status character are unchanged. Several
banks and missing chips: the spec's decisions D8 and D9. -/
def Obligations.StatusStores : Prop :=
  ∀ (i : Instr) (n : BitVec 2) (w : Byte),
    (i, n, w) ∈ [(Instr.wr0, 0#2, 0xE4#8), (.wr1, 1#2, 0xE5#8), (.wr2, 2#2, 0xE6#8), (.wr3, 3#2, 0xE7#8)] →
    encode i = [w] ∧
    ∀ s : State, s.RamReady → ∃ t, exec i s = .next t ∧
      (∀ cell, s.Reaches (fun x => x.statusCell n) cell → t.statusAt cell = s.acc) ∧
      (∀ cell, ¬ s.Reaches (fun x => x.statusCell n) cell → t.statusAt cell = s.statusAt cell) ∧
      t.pc = s.pcPlus 1 ∧ s.SameButPc { t with ramSt := s.ramSt }

/-- `RDM`, `ADM`, `SBM` (spec/42_data_access.md section 3) with one bank selected and a populated chip: the main memory
character at `bank * 256 + chip * 64 + register * 16 + character`, that is at the latched address in the bank (R68),
goes to `ACC`, is added with carry or subtracted with borrow; memory is not written. -/
def Obligations.RamReads : Prop :=
  encode .rdm = [0xE9#8] ∧ encode .adm = [0xEB#8] ∧ encode .sbm = [0xE8#8] ∧
  ∀ (s : State) (b : Bank) (a : Byte) (m : Nibble), s.OneBank b a → a.toNat / 64 < s.platform.ramChipsPerBank →
    s.charAt (b.toNat * 256 + a.toNat) = m →
    (∃ t, exec .rdm s = .next t ∧ t.acc = m ∧ t.pc = s.pcPlus 1 ∧ s.SameButAccPc t) ∧
    (∃ t, exec .adm s = .next t ∧ t.acc.toNat = (s.acc.toNat + m.toNat + s.cy.toNat) % 16 ∧
      (t.cy = true ↔ 16 ≤ s.acc.toNat + m.toNat + s.cy.toNat) ∧ t.pc = s.pcPlus 1 ∧ s.SameButAccCyPc t) ∧
    ∃ t, exec .sbm s = .next t ∧ (t.acc.toNat : Int) = ((s.acc.toNat : Int) - m.toNat - s.cy.toNat) % 16 ∧
      (t.cy = true ↔ m.toNat + s.cy.toNat ≤ s.acc.toNat) ∧ t.pc = s.pcPlus 1 ∧ s.SameButAccCyPc t

/-- `RD0` to `RD3` (spec/42_data_access.md section 3) with one bank selected and a populated chip: the status character of
that number of the latched chip and RAM register goes to `ACC`; the character number plays no part. -/
def Obligations.StatusReads : Prop :=
  ∀ (i : Instr) (n w : Nat),
    (i, n, w) ∈ [(Instr.rd0, 0, 0xEC), (.rd1, 1, 0xED), (.rd2, 2, 0xEE), (.rd3, 3, 0xEF)] →
    encode i = [BitVec.ofNat 8 w] ∧
    ∀ (s : State) (b : Bank) (a : Byte), s.OneBank b a → a.toNat / 64 < s.platform.ramChipsPerBank →
      ∃ t, exec i s = .next t ∧ t.acc = s.statusAt (b.toNat * 64 + a.toNat / 16 * 4 + n) ∧
        t.pc = s.pcPlus 1 ∧ s.SameButAccPc t

/-- `RDR` (spec/42_data_access.md section 3): the value the environment drives on ROM chip `ROMSEL`'s input lines goes to
`ACC`, never tied to `ROMOUT` (the spec's decision D10). Which value: the oldest the host supplied for that chip, else,
and for a chip the platform lacks, the free value of this draw (logs 11, 12). -/
def Obligations.RdrReadsInputLines : Prop :=
  encode .rdr = [0xEA#8] ∧
  ∀ s : State, s.romSelSent = true →
    (∀ (v : Nibble) (vs : List Nibble), s.romSel.toNat < s.platform.romChips → s.romIn[s.romSel.toNat] = v :: vs →
      ∃ t, exec .rdr s = .next t ∧ t.acc = v ∧ t.romIn = s.romIn.set s.romSel.toNat vs ∧ t.pc = s.pcPlus 1 ∧
        s.SameButAccPc { t with romIn := s.romIn }) ∧
    (s.platform.romChips ≤ s.romSel.toNat ∨ s.romIn[s.romSel.toNat] = [] →
      ∃ t, exec .rdr s = .next t ∧ t.acc = Config.freeNibble s.draws ∧ t.draws = s.draws + 1 ∧ t.pc = s.pcPlus 1 ∧
        s.SameButAccPc { t with draws := s.draws })

/-- With several banks selected, or a chip the platform lacks, a RAM read completes with a free value (the spec's
decisions D8 and D9 allow `any value`; logs 9, 11), and `ADM` and `SBM` compute with that value; memory is not written. -/
def Obligations.UndrivenReadsAreFree : Prop :=
  ∀ s : State, s.RamReady →
    (2 ≤ s.banks.length ∨ ∃ b, s.banks = [b] ∧ s.platform.ramChipsPerBank ≤ (s.ramAddr b).toNat / 64) →
    (∀ i ∈ [Instr.rdm, .rd0, .rd1, .rd2, .rd3], ∃ t, exec i s = .next t ∧ t.acc = Config.freeNibble s.draws ∧
      t.draws = s.draws + 1 ∧ t.pc = s.pcPlus 1 ∧ s.SameButAccPc { t with draws := s.draws }) ∧
    (∃ t, exec .adm s = .next t ∧
      t.acc.toNat = (s.acc.toNat + (Config.freeNibble s.draws).toNat + s.cy.toNat) % 16 ∧
      (t.cy = true ↔ 16 ≤ s.acc.toNat + (Config.freeNibble s.draws).toNat + s.cy.toNat) ∧
      t.draws = s.draws + 1 ∧ t.pc = s.pcPlus 1 ∧ s.SameButAccCyPc { t with draws := s.draws }) ∧
    ∃ t, exec .sbm s = .next t ∧
      (t.acc.toNat : Int) = ((s.acc.toNat : Int) - (Config.freeNibble s.draws).toNat - s.cy.toNat) % 16 ∧
      (t.cy = true ↔ (Config.freeNibble s.draws).toNat + s.cy.toNat ≤ s.acc.toNat) ∧
      t.draws = s.draws + 1 ∧ t.pc = s.pcPlus 1 ∧ s.SameButAccCyPc { t with draws := s.draws }

/-- The spec's decision D6 (R196, log 10): a RAM access is refused when no `SRC` has reached a bank it selects since reset,
and a ROM port access when no `SRC` has been executed since reset. With several banks selected and only some of them sent
an address, that the whole access is refused is the model's choice (log 20). -/
def Obligations.AccessBeforeSrcRefused : Prop :=
  (∀ i ∈ [Instr.wrm, .wmp, .wr0, .wr1, .wr2, .wr3, .sbm, .rdm, .adm, .rd0, .rd1, .rd2, .rd3],
    ∀ s : State, ¬ s.RamReady →
      ∃ b ∈ s.banks, s.ramAddrSent b = false ∧ exec i s = .refused (.ramAddressNeverSent b)) ∧
  ∀ i ∈ [Instr.wrr, .rdr], ∀ s : State, s.romSelSent = false → exec i s = .refused .romPortNeverSelected

/-! ### Accumulator group -/

/-- R220, R221, R223, R224, R230: `CLB`, `CLC`, `CMC`, `CMA`, `STC`. -/
def Obligations.ClearSetComplement : Prop :=
  encode .clb = [0xF0#8] ∧ encode .clc = [0xF1#8] ∧ encode .cmc = [0xF3#8] ∧ encode .cma = [0xF4#8] ∧
  encode .stc = [0xFA#8] ∧
  ∀ s : State,
    (∃ t, exec .clb s = .next t ∧ t.acc = 0 ∧ t.cy = false ∧ t.pc = s.pcPlus 1 ∧ s.SameButAccCyPc t) ∧
    (∃ t, exec .clc s = .next t ∧ t.acc = s.acc ∧ t.cy = false ∧ t.pc = s.pcPlus 1 ∧ s.SameButAccCyPc t) ∧
    (∃ t, exec .cmc s = .next t ∧ t.acc = s.acc ∧ t.cy.toNat = 1 - s.cy.toNat ∧ t.pc = s.pcPlus 1 ∧
      s.SameButAccCyPc t) ∧
    (∃ t, exec .cma s = .next t ∧ t.acc.toNat = 15 - s.acc.toNat ∧ t.pc = s.pcPlus 1 ∧ s.SameButAccPc t) ∧
    ∃ t, exec .stc s = .next t ∧ t.acc = s.acc ∧ t.cy = true ∧ t.pc = s.pcPlus 1 ∧ s.SameButAccCyPc t

/-- R222, R228: `IAC` sets the carry exactly when `ACC` was 15, `DAC` exactly when it was not 0; the old carry plays no
part. -/
def Obligations.IncrementDecrementAccumulator : Prop :=
  encode .iac = [0xF2#8] ∧ encode .dac = [0xF8#8] ∧
  ∀ s : State,
    (∃ t, exec .iac s = .next t ∧ t.acc.toNat = (s.acc.toNat + 1) % 16 ∧ (t.cy = true ↔ s.acc.toNat = 15) ∧
      t.pc = s.pcPlus 1 ∧ s.SameButAccCyPc t) ∧
    ∃ t, exec .dac s = .next t ∧ t.acc.toNat = (s.acc.toNat + 15) % 16 ∧ (t.cy = true ↔ s.acc.toNat ≠ 0) ∧
      t.pc = s.pcPlus 1 ∧ s.SameButAccCyPc t

/-- R225, R226: the rotations of the ring `{CY, ACC}` by one, as numbers (`RAL` doubles and `RAR` halves when `CY = 0`); each
undoes the other; five `RAL`s restore `ACC` and `CY`. -/
def Obligations.RotatesThroughCarry : Prop :=
  encode .ral = [0xF5#8] ∧ encode .rar = [0xF6#8] ∧
  (∀ s : State,
    (∃ t, exec .ral s = .next t ∧ t.acc.toNat = (2 * s.acc.toNat + s.cy.toNat) % 16 ∧
      (t.cy = true ↔ 8 ≤ s.acc.toNat) ∧ t.pc = s.pcPlus 1 ∧ s.SameButAccCyPc t) ∧
    ∃ t, exec .rar s = .next t ∧ t.acc.toNat = s.acc.toNat / 2 + 8 * s.cy.toNat ∧
      (t.cy = true ↔ s.acc.toNat % 2 = 1) ∧ t.pc = s.pcPlus 1 ∧ s.SameButAccCyPc t) ∧
  (∀ s t u : State, exec .ral s = .next t → exec .rar t = .next u → u.acc = s.acc ∧ u.cy = s.cy) ∧
  (∀ s t u : State, exec .rar s = .next t → exec .ral t = .next u → u.acc = s.acc ∧ u.cy = s.cy) ∧
  ∀ s t1 t2 t3 t4 t5 : State, exec .ral s = .next t1 → exec .ral t1 = .next t2 → exec .ral t2 = .next t3 →
    exec .ral t3 = .next t4 → exec .ral t4 = .next t5 → t5.acc = s.acc ∧ t5.cy = s.cy

/-- R227, R229: `TCC` and `TCS` turn the carry into a digit and clear it. -/
def Obligations.CarryBecomesDigit : Prop :=
  encode .tcc = [0xF7#8] ∧ encode .tcs = [0xF9#8] ∧
  ∀ s : State,
    (∃ t, exec .tcc s = .next t ∧ t.acc.toNat = s.cy.toNat ∧ t.cy = false ∧ t.pc = s.pcPlus 1 ∧
      s.SameButAccCyPc t) ∧
    ∃ t, exec .tcs s = .next t ∧ t.acc.toNat = 9 + s.cy.toNat ∧ t.cy = false ∧ t.pc = s.pcPlus 1 ∧
      s.SameButAccCyPc t

/-- R231: `DAA` adds 6 when `ACC > 9` or `CY = 1`; the carry is set by a carry out of that addition and never cleared. -/
def Obligations.DaaAdjusts : Prop :=
  encode .daa = [0xFB#8] ∧
  ∀ s : State, ∃ t, exec .daa s = .next t ∧
    t.acc.toNat = (if 9 < s.acc.toNat ∨ s.cy = true then (s.acc.toNat + 6) % 16 else s.acc.toNat) ∧
    (t.cy = true ↔ s.cy = true ∨ 10 ≤ s.acc.toNat) ∧ t.pc = s.pcPlus 1 ∧ s.SameButAccCyPc t

/-- The use R231 (b) to (d) names: after an `ADD` of two decimal digits and a carry, `DAA` leaves the decimal digit of the
sum in `ACC` and its decimal carry in `CY`. -/
def Obligations.DecimalAddition : Prop :=
  ∀ (s t : State) (r : Reg), s.acc.toNat ≤ 9 → (s.reg r).toNat ≤ 9 → exec (.add r) s = .next t →
    ∃ u, exec .daa t = .next u ∧
      u.acc.toNat + 10 * u.cy.toNat = s.acc.toNat + (s.reg r).toNat + s.cy.toNat ∧ u.acc.toNat ≤ 9

/-- R232: `KBP` gives 0 for no bit, the position from 1 for exactly one bit, 15 for more. -/
def Obligations.KbpEncodesOneBit : Prop :=
  encode .kbp = [0xFC#8] ∧
  ∀ s : State, ∃ t, exec .kbp s = .next t ∧
    some t.acc.toNat = [0, 1, 2, 15, 3, 15, 15, 15, 4, 15, 15, 15, 15, 15, 15, 15][s.acc.toNat]? ∧
    t.pc = s.pcPlus 1 ∧ s.SameButAccPc t

/-- R233: `DCL` takes the lower 3 bits of `ACC`; it governs the banks from the very next instruction on, and no latch, no
`ACC` and no `CY` changes. -/
def Obligations.DclDesignatesBank : Prop :=
  encode .dcl = [0xFD#8] ∧
  ∀ s : State, ∃ t, exec .dcl s = .next t ∧ t.dcl.toNat = s.acc.toNat % 8 ∧
    t.banks = banksOf s.platform.bankMode (BitVec.ofNat 3 (s.acc.toNat % 8)) ∧
    (∀ b, t.ramAddr b = s.ramAddr b) ∧ t.romSel = s.romSel ∧ t.pc = s.pcPlus 1 ∧
    s.SameButPc { t with dcl := s.dcl }

/-! ### What no other instruction changes -/

/-- The spaces outside the CPU change only by their own instructions (R60, R84): main memory by `WRM`, status by `WR0` to
`WR3`, RAM ports by `WMP`, ROM ports by `WRR`; for every other instruction every cell reads as before. -/
def Obligations.OnlyStoresWriteMemory : Prop :=
  ∀ (i : Instr) (s t : State), exec i s = .next t →
    (i ≠ .wrm → ∀ cell, t.charAt cell = s.charAt cell) ∧
    (i ∉ [Instr.wr0, .wr1, .wr2, .wr3] → ∀ cell, t.statusAt cell = s.statusAt cell) ∧
    (i ≠ .wmp → ∀ b c, t.ramPort b c = s.ramPort b c) ∧
    (i ≠ .wrr → ∀ k, t.romPort k = s.romPort k) ∧
    ∀ a, t.romByte a = s.romByte a

/-- Index registers are written by `INC`, `ISZ` and `XCH` (the register named) and by `FIM` and `FIN` (the pair named), by
nothing else (table of R50). -/
def Obligations.IndexRegisterWriters : Prop :=
  ∀ (i : Instr) (s t : State) (r : Reg), exec i s = .next t → t.reg r ≠ s.reg r →
    i = .inc r ∨ (∃ a, i = .isz r a) ∨ i = .xch r ∨
      ∃ p : Pair, p.toNat = r.toNat / 2 ∧ (i = .fin p ∨ ∃ d, i = .fim p d)

/-- The writers of `CY` are the list of R31, in full, and those of `ACC` the readers and arithmetic of R30. -/
def Obligations.AccumulatorAndCarryWriters : Prop :=
  ∀ (i : Instr) (s t : State), exec i s = .next t →
    (t.cy ≠ s.cy → (∃ r, i = .add r ∨ i = .sub r) ∨
      i ∈ [Instr.adm, .sbm, .clb, .clc, .iac, .dac, .cmc, .ral, .rar, .tcc, .tcs, .stc, .daa]) ∧
    (t.acc ≠ s.acc → (∃ r, i = .add r ∨ i = .sub r ∨ i = .ld r ∨ i = .xch r ∨ i = .ldm r ∨ i = .bbl r) ∨
      i ∈ [Instr.sbm, .rdm, .rdr, .adm, .rd0, .rd1, .rd2, .rd3, .clb, .iac, .cma, .ral, .rar, .tcc, .dac, .tcs, .daa,
        .kbp])

/-- `DCL` is written by the `DCL` instruction only (R34), `SP` is moved by `JMS` and `BBL` only (R36), no level but the
active one is written by any other instruction (R35), and the latches are written by `SRC` only and then retained (R69,
R197). -/
def Obligations.ControlStateWriters : Prop :=
  ∀ (i : Instr) (s t : State), exec i s = .next t →
    (i ≠ .dcl → t.dcl = s.dcl) ∧
    ((∀ a, i ≠ .jms a) → (∀ d, i ≠ .bbl d) →
      t.sp = s.sp ∧ (∀ l, t.levelKnown l = s.levelKnown l) ∧ ∀ l, l ≠ s.sp → t.level l = s.level l) ∧
    ((∀ p, i ≠ .src p) → t.romSel = s.romSel ∧ t.romSelSent = s.romSelSent ∧
      ∀ b, t.ramAddr b = s.ramAddr b ∧ t.ramAddrSent b = s.ramAddrSent b)

/-- R84 and the spec's decision D13: no step, a reset included, changes the program text; nor does one change the platform
(log 3). -/
def Obligations.StepsKeepProgramAndPlatform : Prop :=
  ∀ s t : State, step s = .next t → (∀ a, t.romByte a = s.romByte a) ∧ t.rom = s.rom ∧ t.platform = s.platform

/-- An instruction stops by a refusal only in the two named cases: an access whose latch was never sent (D6, log 10) and a
`FIN` that reads a chip the platform lacks (D9, log 11). -/
def Obligations.InstructionsRefuseOnlyByDuty : Prop :=
  ∀ (i : Instr) (s : State) (r : Refusal), exec i s = .refused r →
    (∃ b ∈ s.banks, s.ramAddrSent b = false ∧ r = .ramAddressNeverSent b) ∨
    (s.romSelSent = false ∧ r = .romPortNeverSelected) ∨
    ∃ p, i = .fin p ∧ s.platform.romChips ≤ (s.pcPlus 1).toNat / 256 ∧
      r = .romNotPopulated (s.inPage 1 (s.pair 0))

/-! ### Invariants -/

/-- The invariant holds after reset, on the reference platform and on every legal one. -/
def Obligations.ResetMeetsInvariant : Prop :=
  State.reset.Inv ∧ ∀ p : Platform, p.legal = true → (State.bootOn p).Inv

/-- Every step keeps the invariant: canonical program text and RAM inside their spaces, written characters in populated
chips of existing banks only, a legal platform, a PC that holds a specified address, latches consistent. -/
def Obligations.EveryStepKeepsInvariant : Prop :=
  ∀ s t : State, s.Inv → step s = .next t → t.Inv

/-! ### Rules about sequences of instructions -/

/-- A `BBL` executed at the level a `JMS` entered, with the caller's level untouched meanwhile, resumes at the word after
the `JMS` (R139 (b)), at the caller's level; whatever else the subroutine did. -/
def Obligations.CallThenReturnResumes : Prop :=
  ∀ (a : Addr) (d : Nibble) (s t u : State), exec (.jms a) s = .next t →
    u.sp = t.sp → u.level s.sp = t.level s.sp → u.levelKnown s.sp = t.levelKnown s.sp →
    ∃ v, exec (.bbl d) u = .next v ∧ v.pc = s.pcPlus 2 ∧ v.sp = s.sp ∧ v.acc = d

/-- Four calls in a row overwrite the earliest return address (R163 (b), R255): the level that held it is the PC of the
fourth subroutine; the three newer return addresses are intact and three returns use them; the fourth return faults, the
spec's decision D5 (log 8). -/
def Obligations.FourthNestedCallLosesFirstReturn : Prop :=
  ∀ (a1 a2 a3 a4 : Addr) (d1 d2 d3 d4 : Nibble) (s t1 t2 t3 t4 : State),
    exec (.jms a1) s = .next t1 → exec (.jms a2) t1 = .next t2 → exec (.jms a3) t2 = .next t3 →
    exec (.jms a4) t3 = .next t4 →
    t4.sp = s.sp ∧ t4.level s.sp = a4 ∧
    ∃ u1 u2 u3, exec (.bbl d1) t4 = .next u1 ∧ u1.pc = t3.pcPlus 2 ∧ exec (.bbl d2) u1 = .next u2 ∧
      u2.pc = t2.pcPlus 2 ∧ exec (.bbl d3) u2 = .next u3 ∧ u3.pc = t1.pcPlus 2 ∧
      exec (.bbl d4) u3 = .fault .returnToUnknownLevel

/-- R81 (a) and the spec's decision D11: in one bank and a populated chip, an `RDM` returns what the last `WRM` to the same
latched address wrote, and an `RDn` what the last `WRn` to the same chip and RAM register wrote. Between the two anything
may have happened that left that one cell alone: other cells written, other addresses sent, `DCL` changed and back. -/
def Obligations.ReadReturnsLastWrite : Prop :=
  ∀ (s t u : State) (b : Bank) (a a' : Byte), s.OneBank b a → a.toNat / 64 < s.platform.ramChipsPerBank →
    u.OneBank b a' → u.platform = s.platform →
    (a' = a → exec .wrm s = .next t → u.charAt (b.toNat * 256 + a.toNat) = t.charAt (b.toNat * 256 + a.toNat) →
      ∃ v, exec .rdm u = .next v ∧ v.acc = s.acc) ∧
    ∀ (w r : Instr) (n : Nat),
      (w, r, n) ∈ [(Instr.wr0, Instr.rd0, 0), (.wr1, .rd1, 1), (.wr2, .rd2, 2), (.wr3, .rd3, 3)] →
      a'.toNat / 16 = a.toNat / 16 → exec w s = .next t →
      u.statusAt (b.toNat * 64 + a.toNat / 16 * 4 + n) = t.statusAt (b.toNat * 64 + a.toNat / 16 * 4 + n) →
      ∃ v, exec r u = .next v ∧ v.acc = s.acc

/-- R262, the spec's decision D12: the end of a run, a `JUN` to its own address, is a fixed point of the step. -/
def Obligations.JumpToSelfIsFixedPoint : Prop :=
  ∀ s : State, s.halted = true → step s = .next s

/-- `TEST` is seen only by a `JCN` whose mask selects it (R48, R267 (b)), and the ROM input lines only by `RDR` (R43,
R267 (c)): any other instruction does the same whatever the host has supplied, and leaves it. -/
def Obligations.InputsSeenOnlyByJcnAndRdr : Prop :=
  (∀ (i : Instr) (s : State) (vs : List Bool), (∀ c a, i = .jcn c a → c.getLsbD 0 = false) →
    exec i { s with testIn := vs } = mapNext (fun t => { t with testIn := vs }) (exec i s)) ∧
  ∀ (i : Instr) (s : State) (vs : Vector (List Nibble) 16), i ≠ .rdr →
    exec i { s with romIn := vs } = mapNext (fun t => { t with romIn := vs }) (exec i s)
end

