-- ==== Sys2Proof/Laws/Cells.lean ====
section
/-! SUPPORT. Lists of cells: a read after a write, that a write leaves every other cell alone, and that every memory
operation keeps the canonical form (spec/20_memory.md R81). -/

namespace Sys2Proof.Machine

variable {α : Type}

theorem lookupCell_putCell (k a : Nat) (v : α) (cs : List (Nat × α)) :
    lookupCell a (putCell k v cs) = if a = k then some v else lookupCell a cs := by
  induction cs with
  | nil => simp [putCell, lookupCell, eq_comm]
  | cons c rest ih =>
    obtain ⟨j, u⟩ := c
    simp only [putCell]
    split
    · simp [lookupCell, eq_comm]
    · split
      · rename_i hk
        subst hk
        by_cases h : a = k
        · simp [lookupCell, h]
        · simp [lookupCell, h, Ne.symm h]
      · by_cases h : a = k
        · subst h; simp_all [lookupCell, eq_comm]
        · by_cases hj : j = a <;> simp_all [lookupCell]

theorem rising_cons (c : Nat × α) (cs : List (Nat × α)) :
    rising (c :: cs) = true ↔ (∀ x ∈ cs, c.1 < x.1) ∧ rising cs = true := by
  simp [rising]

theorem mem_putCell {k : Nat} {v : α} {cs : List (Nat × α)} {x : Nat × α} (h : x ∈ putCell k v cs) :
    x = (k, v) ∨ x ∈ cs := by
  induction cs with
  | nil => simpa [putCell] using h
  | cons c rest ih =>
    simp only [putCell] at h
    split at h
    · simpa using h
    · split at h
      · simp only [List.mem_cons] at h ⊢; tauto
      · simp only [List.mem_cons] at h ⊢; tauto

theorem mem_dropCell {k : Nat} {cs : List (Nat × α)} {x : Nat × α} (h : x ∈ dropCell k cs) : x ∈ cs := by
  induction cs with
  | nil => simp [dropCell] at h
  | cons c rest ih =>
    simp only [dropCell] at h
    split at h <;> simp only [List.mem_cons] at h ⊢ <;> tauto

theorem rising_putCell (k : Nat) (v : α) (cs : List (Nat × α)) (h : rising cs = true) :
    rising (putCell k v cs) = true := by
  induction cs with
  | nil => simp [putCell, rising]
  | cons c rest ih =>
    obtain ⟨hc, hr⟩ := (rising_cons c rest).1 h
    simp only [putCell]
    split
    · rename_i hk
      refine (rising_cons _ _).2 ⟨fun x hx => ?_, h⟩
      rcases List.mem_cons.1 hx with rfl | hx
      · exact hk
      · exact Nat.lt_trans hk (hc x hx)
    · split
      · rename_i hk
        subst hk
        exact (rising_cons _ _).2 ⟨hc, hr⟩
      · refine (rising_cons _ _).2 ⟨fun x hx => ?_, ih hr⟩
        rcases mem_putCell hx with rfl | hx
        · simp only; omega
        · exact hc x hx

theorem rising_dropCell (k : Nat) (cs : List (Nat × α)) (h : rising cs = true) : rising (dropCell k cs) = true := by
  induction cs with
  | nil => simp [dropCell, rising]
  | cons c rest ih =>
    obtain ⟨hc, hr⟩ := (rising_cons c rest).1 h
    simp only [dropCell]
    split
    · exact hr
    · exact (rising_cons _ _).2 ⟨fun x hx => hc x (mem_dropCell hx), ih hr⟩

theorem lookupCell_none_of_lt (a : Nat) (cs : List (Nat × α)) (h : ∀ x ∈ cs, a < x.1) : lookupCell a cs = none := by
  induction cs with
  | nil => rfl
  | cons c rest ih =>
    have hc : a < c.1 := h c (by simp)
    have hr : lookupCell a rest = none := ih fun x hx => h x (by simp [hx])
    simp only [lookupCell, hr]
    split <;> [omega; rfl]

theorem lookupCell_dropCell (k a : Nat) (cs : List (Nat × α)) (h : rising cs = true) :
    lookupCell a (dropCell k cs) = if a = k then none else lookupCell a cs := by
  induction cs with
  | nil => simp [dropCell, lookupCell]
  | cons c rest ih =>
    obtain ⟨hc, hr⟩ := (rising_cons c rest).1 h
    simp only [dropCell]
    by_cases hck : c.1 = k
    · by_cases ha : a = k
      · subst ha hck
        simpa using lookupCell_none_of_lt _ rest hc
      · have hca : ¬ k = a := fun h => ha h.symm
        simp [hck, ha, lookupCell, hca]
    · by_cases ha : a = k
      · subst ha
        simp [hck, lookupCell, ih hr]
      · simp [hck, lookupCell, ih hr, ha]

/-! ### Program text -/

theorem Memory.wf_iff (m : Memory) :
    Memory.wf m = true ↔ rising m = true ∧ ∀ c ∈ m, c.1 < 4096 ∧ c.2 ≠ Memory.unlisted := by
  simp [Memory.wf, List.all_eq_true]

theorem Memory.wf_write (m : Memory) (a : Addr) (w : Byte) (h : Memory.wf m = true) :
    Memory.wf (Memory.write m a w) = true := by
  obtain ⟨hr, hc⟩ := (Memory.wf_iff m).1 h
  have ha : a.toNat < 4096 := a.isLt
  unfold Memory.write
  split
  · exact (Memory.wf_iff _).2 ⟨rising_dropCell _ _ hr, fun c hx => hc c (mem_dropCell hx)⟩
  · rename_i hw
    refine (Memory.wf_iff _).2 ⟨rising_putCell _ _ _ hr, fun c hx => ?_⟩
    rcases mem_putCell hx with rfl | hx
    · exact ⟨ha, hw⟩
    · exact hc c hx

theorem Memory.read_write (m : Memory) (a : Addr) (w : Byte) (b : Nat) (h : Memory.wf m = true) :
    Memory.read (Memory.write m a w) b = if b = a.toNat then w else Memory.read m b := by
  obtain ⟨hr, -⟩ := (Memory.wf_iff m).1 h
  unfold Memory.read Memory.write
  split
  · rename_i hw
    rw [lookupCell_dropCell _ _ _ hr]
    split <;> simp_all
  · rw [lookupCell_putCell]
    split <;> simp

theorem State.reset_rom_wf : Memory.wf State.reset.rom = true := by decide

/-! ### RAM characters -/

theorem Chars.wf_iff (n : Nat) (cs : Chars) : Chars.wf n cs = true ↔ rising cs = true ∧ ∀ c ∈ cs, c.1 < n := by
  simp [Chars.wf, List.all_eq_true]

theorem Chars.wf_put (n k : Nat) (v : Nibble) (cs : Chars) (h : Chars.wf n cs = true) (hk : k < n) :
    Chars.wf n (putCell k v cs) = true := by
  obtain ⟨hr, hc⟩ := (Chars.wf_iff n cs).1 h
  refine (Chars.wf_iff n _).2 ⟨rising_putCell k v cs hr, fun c hx => ?_⟩
  rcases mem_putCell hx with rfl | hx
  · exact hk
  · exact hc c hx

theorem State.reset_ramCh_wf : Chars.wf (State.reset.platform.nbanks * 256) State.reset.ramCh = true := by decide

theorem State.reset_ramSt_wf : Chars.wf (State.reset.platform.nbanks * 64) State.reset.ramSt = true := by decide

end Sys2Proof.Machine
end

