-- ==== Sys2Proof/Laws/State.lean ====
section
/-! SUPPORT. One lemma per field of State per update, true by rfl, and the laws of the named views (a register after a write
to a register, the PC after a write to the PC), so that no proof unfolds a record update. -/

namespace Sys2Proof.Machine

/-! ### `ACC <- v` -/

@[simp] theorem State.setAcc_acc (s : State) (v : Nibble) : (s.setAcc v).acc = v := rfl
@[simp] theorem State.setAcc_cy (s : State) (v : Nibble) : (s.setAcc v).cy = s.cy := rfl
@[simp] theorem State.setAcc_regs (s : State) (v : Nibble) : (s.setAcc v).regs = s.regs := rfl
@[simp] theorem State.setAcc_dcl (s : State) (v : Nibble) : (s.setAcc v).dcl = s.dcl := rfl
@[simp] theorem State.setAcc_sp (s : State) (v : Nibble) : (s.setAcc v).sp = s.sp := rfl
@[simp] theorem State.setAcc_stk (s : State) (v : Nibble) : (s.setAcc v).stk = s.stk := rfl
@[simp] theorem State.setAcc_stkKnown (s : State) (v : Nibble) : (s.setAcc v).stkKnown = s.stkKnown := rfl
@[simp] theorem State.setAcc_rom (s : State) (v : Nibble) : (s.setAcc v).rom = s.rom := rfl
@[simp] theorem State.setAcc_romSel (s : State) (v : Nibble) : (s.setAcc v).romSel = s.romSel := rfl
@[simp] theorem State.setAcc_romSelSent (s : State) (v : Nibble) : (s.setAcc v).romSelSent = s.romSelSent := rfl
@[simp] theorem State.setAcc_romOut (s : State) (v : Nibble) : (s.setAcc v).romOut = s.romOut := rfl
@[simp] theorem State.setAcc_ramSel (s : State) (v : Nibble) : (s.setAcc v).ramSel = s.ramSel := rfl
@[simp] theorem State.setAcc_ramSelSent (s : State) (v : Nibble) : (s.setAcc v).ramSelSent = s.ramSelSent := rfl
@[simp] theorem State.setAcc_ramCh (s : State) (v : Nibble) : (s.setAcc v).ramCh = s.ramCh := rfl
@[simp] theorem State.setAcc_ramSt (s : State) (v : Nibble) : (s.setAcc v).ramSt = s.ramSt := rfl
@[simp] theorem State.setAcc_ramOut (s : State) (v : Nibble) : (s.setAcc v).ramOut = s.ramOut := rfl
@[simp] theorem State.setAcc_testIn (s : State) (v : Nibble) : (s.setAcc v).testIn = s.testIn := rfl
@[simp] theorem State.setAcc_romIn (s : State) (v : Nibble) : (s.setAcc v).romIn = s.romIn := rfl
@[simp] theorem State.setAcc_resetIn (s : State) (v : Nibble) : (s.setAcc v).resetIn = s.resetIn := rfl
@[simp] theorem State.setAcc_platform (s : State) (v : Nibble) : (s.setAcc v).platform = s.platform := rfl
@[simp] theorem State.setAcc_draws (s : State) (v : Nibble) : (s.setAcc v).draws = s.draws := rfl
@[simp] theorem State.setAcc_ramEpoch (s : State) (v : Nibble) : (s.setAcc v).ramEpoch = s.ramEpoch := rfl

/-! ### `CY <- c` -/

@[simp] theorem State.setCy_acc (s : State) (c : Bool) : (s.setCy c).acc = s.acc := rfl
@[simp] theorem State.setCy_cy (s : State) (c : Bool) : (s.setCy c).cy = c := rfl
@[simp] theorem State.setCy_regs (s : State) (c : Bool) : (s.setCy c).regs = s.regs := rfl
@[simp] theorem State.setCy_dcl (s : State) (c : Bool) : (s.setCy c).dcl = s.dcl := rfl
@[simp] theorem State.setCy_sp (s : State) (c : Bool) : (s.setCy c).sp = s.sp := rfl
@[simp] theorem State.setCy_stk (s : State) (c : Bool) : (s.setCy c).stk = s.stk := rfl
@[simp] theorem State.setCy_stkKnown (s : State) (c : Bool) : (s.setCy c).stkKnown = s.stkKnown := rfl
@[simp] theorem State.setCy_rom (s : State) (c : Bool) : (s.setCy c).rom = s.rom := rfl
@[simp] theorem State.setCy_romSel (s : State) (c : Bool) : (s.setCy c).romSel = s.romSel := rfl
@[simp] theorem State.setCy_romSelSent (s : State) (c : Bool) : (s.setCy c).romSelSent = s.romSelSent := rfl
@[simp] theorem State.setCy_romOut (s : State) (c : Bool) : (s.setCy c).romOut = s.romOut := rfl
@[simp] theorem State.setCy_ramSel (s : State) (c : Bool) : (s.setCy c).ramSel = s.ramSel := rfl
@[simp] theorem State.setCy_ramSelSent (s : State) (c : Bool) : (s.setCy c).ramSelSent = s.ramSelSent := rfl
@[simp] theorem State.setCy_ramCh (s : State) (c : Bool) : (s.setCy c).ramCh = s.ramCh := rfl
@[simp] theorem State.setCy_ramSt (s : State) (c : Bool) : (s.setCy c).ramSt = s.ramSt := rfl
@[simp] theorem State.setCy_ramOut (s : State) (c : Bool) : (s.setCy c).ramOut = s.ramOut := rfl
@[simp] theorem State.setCy_testIn (s : State) (c : Bool) : (s.setCy c).testIn = s.testIn := rfl
@[simp] theorem State.setCy_romIn (s : State) (c : Bool) : (s.setCy c).romIn = s.romIn := rfl
@[simp] theorem State.setCy_resetIn (s : State) (c : Bool) : (s.setCy c).resetIn = s.resetIn := rfl
@[simp] theorem State.setCy_platform (s : State) (c : Bool) : (s.setCy c).platform = s.platform := rfl
@[simp] theorem State.setCy_draws (s : State) (c : Bool) : (s.setCy c).draws = s.draws := rfl
@[simp] theorem State.setCy_ramEpoch (s : State) (c : Bool) : (s.setCy c).ramEpoch = s.ramEpoch := rfl

/-! ### `(ACC, CY) <- p` -/

@[simp] theorem State.setAccCy_acc (s : State) (p : Nibble × Bool) : (s.setAccCy p).acc = p.1 := rfl
@[simp] theorem State.setAccCy_cy (s : State) (p : Nibble × Bool) : (s.setAccCy p).cy = p.2 := rfl
@[simp] theorem State.setAccCy_regs (s : State) (p : Nibble × Bool) : (s.setAccCy p).regs = s.regs := rfl
@[simp] theorem State.setAccCy_dcl (s : State) (p : Nibble × Bool) : (s.setAccCy p).dcl = s.dcl := rfl
@[simp] theorem State.setAccCy_sp (s : State) (p : Nibble × Bool) : (s.setAccCy p).sp = s.sp := rfl
@[simp] theorem State.setAccCy_stk (s : State) (p : Nibble × Bool) : (s.setAccCy p).stk = s.stk := rfl
@[simp] theorem State.setAccCy_stkKnown (s : State) (p : Nibble × Bool) : (s.setAccCy p).stkKnown = s.stkKnown := rfl
@[simp] theorem State.setAccCy_rom (s : State) (p : Nibble × Bool) : (s.setAccCy p).rom = s.rom := rfl
@[simp] theorem State.setAccCy_romSel (s : State) (p : Nibble × Bool) : (s.setAccCy p).romSel = s.romSel := rfl
@[simp] theorem State.setAccCy_romSelSent (s : State) (p : Nibble × Bool) : (s.setAccCy p).romSelSent = s.romSelSent := rfl
@[simp] theorem State.setAccCy_romOut (s : State) (p : Nibble × Bool) : (s.setAccCy p).romOut = s.romOut := rfl
@[simp] theorem State.setAccCy_ramSel (s : State) (p : Nibble × Bool) : (s.setAccCy p).ramSel = s.ramSel := rfl
@[simp] theorem State.setAccCy_ramSelSent (s : State) (p : Nibble × Bool) : (s.setAccCy p).ramSelSent = s.ramSelSent := rfl
@[simp] theorem State.setAccCy_ramCh (s : State) (p : Nibble × Bool) : (s.setAccCy p).ramCh = s.ramCh := rfl
@[simp] theorem State.setAccCy_ramSt (s : State) (p : Nibble × Bool) : (s.setAccCy p).ramSt = s.ramSt := rfl
@[simp] theorem State.setAccCy_ramOut (s : State) (p : Nibble × Bool) : (s.setAccCy p).ramOut = s.ramOut := rfl
@[simp] theorem State.setAccCy_testIn (s : State) (p : Nibble × Bool) : (s.setAccCy p).testIn = s.testIn := rfl
@[simp] theorem State.setAccCy_romIn (s : State) (p : Nibble × Bool) : (s.setAccCy p).romIn = s.romIn := rfl
@[simp] theorem State.setAccCy_resetIn (s : State) (p : Nibble × Bool) : (s.setAccCy p).resetIn = s.resetIn := rfl
@[simp] theorem State.setAccCy_platform (s : State) (p : Nibble × Bool) : (s.setAccCy p).platform = s.platform := rfl
@[simp] theorem State.setAccCy_draws (s : State) (p : Nibble × Bool) : (s.setAccCy p).draws = s.draws := rfl
@[simp] theorem State.setAccCy_ramEpoch (s : State) (p : Nibble × Bool) : (s.setAccCy p).ramEpoch = s.ramEpoch := rfl

/-! ### `DCL <- v` -/

@[simp] theorem State.setDcl_acc (s : State) (v : BitVec 3) : (s.setDcl v).acc = s.acc := rfl
@[simp] theorem State.setDcl_cy (s : State) (v : BitVec 3) : (s.setDcl v).cy = s.cy := rfl
@[simp] theorem State.setDcl_regs (s : State) (v : BitVec 3) : (s.setDcl v).regs = s.regs := rfl
@[simp] theorem State.setDcl_dcl (s : State) (v : BitVec 3) : (s.setDcl v).dcl = v := rfl
@[simp] theorem State.setDcl_sp (s : State) (v : BitVec 3) : (s.setDcl v).sp = s.sp := rfl
@[simp] theorem State.setDcl_stk (s : State) (v : BitVec 3) : (s.setDcl v).stk = s.stk := rfl
@[simp] theorem State.setDcl_stkKnown (s : State) (v : BitVec 3) : (s.setDcl v).stkKnown = s.stkKnown := rfl
@[simp] theorem State.setDcl_rom (s : State) (v : BitVec 3) : (s.setDcl v).rom = s.rom := rfl
@[simp] theorem State.setDcl_romSel (s : State) (v : BitVec 3) : (s.setDcl v).romSel = s.romSel := rfl
@[simp] theorem State.setDcl_romSelSent (s : State) (v : BitVec 3) : (s.setDcl v).romSelSent = s.romSelSent := rfl
@[simp] theorem State.setDcl_romOut (s : State) (v : BitVec 3) : (s.setDcl v).romOut = s.romOut := rfl
@[simp] theorem State.setDcl_ramSel (s : State) (v : BitVec 3) : (s.setDcl v).ramSel = s.ramSel := rfl
@[simp] theorem State.setDcl_ramSelSent (s : State) (v : BitVec 3) : (s.setDcl v).ramSelSent = s.ramSelSent := rfl
@[simp] theorem State.setDcl_ramCh (s : State) (v : BitVec 3) : (s.setDcl v).ramCh = s.ramCh := rfl
@[simp] theorem State.setDcl_ramSt (s : State) (v : BitVec 3) : (s.setDcl v).ramSt = s.ramSt := rfl
@[simp] theorem State.setDcl_ramOut (s : State) (v : BitVec 3) : (s.setDcl v).ramOut = s.ramOut := rfl
@[simp] theorem State.setDcl_testIn (s : State) (v : BitVec 3) : (s.setDcl v).testIn = s.testIn := rfl
@[simp] theorem State.setDcl_romIn (s : State) (v : BitVec 3) : (s.setDcl v).romIn = s.romIn := rfl
@[simp] theorem State.setDcl_resetIn (s : State) (v : BitVec 3) : (s.setDcl v).resetIn = s.resetIn := rfl
@[simp] theorem State.setDcl_platform (s : State) (v : BitVec 3) : (s.setDcl v).platform = s.platform := rfl
@[simp] theorem State.setDcl_draws (s : State) (v : BitVec 3) : (s.setDcl v).draws = s.draws := rfl
@[simp] theorem State.setDcl_ramEpoch (s : State) (v : BitVec 3) : (s.setDcl v).ramEpoch = s.ramEpoch := rfl

/-! ### `R[r] <- v` -/

@[simp] theorem State.setReg_acc (s : State) (r : Reg) (v : Nibble) : (s.setReg r v).acc = s.acc := rfl
@[simp] theorem State.setReg_cy (s : State) (r : Reg) (v : Nibble) : (s.setReg r v).cy = s.cy := rfl
@[simp] theorem State.setReg_regs (s : State) (r : Reg) (v : Nibble) : (s.setReg r v).regs = s.regs.set r.toNat v := rfl
@[simp] theorem State.setReg_dcl (s : State) (r : Reg) (v : Nibble) : (s.setReg r v).dcl = s.dcl := rfl
@[simp] theorem State.setReg_sp (s : State) (r : Reg) (v : Nibble) : (s.setReg r v).sp = s.sp := rfl
@[simp] theorem State.setReg_stk (s : State) (r : Reg) (v : Nibble) : (s.setReg r v).stk = s.stk := rfl
@[simp] theorem State.setReg_stkKnown (s : State) (r : Reg) (v : Nibble) : (s.setReg r v).stkKnown = s.stkKnown := rfl
@[simp] theorem State.setReg_rom (s : State) (r : Reg) (v : Nibble) : (s.setReg r v).rom = s.rom := rfl
@[simp] theorem State.setReg_romSel (s : State) (r : Reg) (v : Nibble) : (s.setReg r v).romSel = s.romSel := rfl
@[simp] theorem State.setReg_romSelSent (s : State) (r : Reg) (v : Nibble) : (s.setReg r v).romSelSent = s.romSelSent := rfl
@[simp] theorem State.setReg_romOut (s : State) (r : Reg) (v : Nibble) : (s.setReg r v).romOut = s.romOut := rfl
@[simp] theorem State.setReg_ramSel (s : State) (r : Reg) (v : Nibble) : (s.setReg r v).ramSel = s.ramSel := rfl
@[simp] theorem State.setReg_ramSelSent (s : State) (r : Reg) (v : Nibble) : (s.setReg r v).ramSelSent = s.ramSelSent := rfl
@[simp] theorem State.setReg_ramCh (s : State) (r : Reg) (v : Nibble) : (s.setReg r v).ramCh = s.ramCh := rfl
@[simp] theorem State.setReg_ramSt (s : State) (r : Reg) (v : Nibble) : (s.setReg r v).ramSt = s.ramSt := rfl
@[simp] theorem State.setReg_ramOut (s : State) (r : Reg) (v : Nibble) : (s.setReg r v).ramOut = s.ramOut := rfl
@[simp] theorem State.setReg_testIn (s : State) (r : Reg) (v : Nibble) : (s.setReg r v).testIn = s.testIn := rfl
@[simp] theorem State.setReg_romIn (s : State) (r : Reg) (v : Nibble) : (s.setReg r v).romIn = s.romIn := rfl
@[simp] theorem State.setReg_resetIn (s : State) (r : Reg) (v : Nibble) : (s.setReg r v).resetIn = s.resetIn := rfl
@[simp] theorem State.setReg_platform (s : State) (r : Reg) (v : Nibble) : (s.setReg r v).platform = s.platform := rfl
@[simp] theorem State.setReg_draws (s : State) (r : Reg) (v : Nibble) : (s.setReg r v).draws = s.draws := rfl
@[simp] theorem State.setReg_ramEpoch (s : State) (r : Reg) (v : Nibble) : (s.setReg r v).ramEpoch = s.ramEpoch := rfl

/-! ### `P[p] <- d` -/

@[simp] theorem State.setPair_acc (s : State) (p : Pair) (d : Byte) : (s.setPair p d).acc = s.acc := rfl
@[simp] theorem State.setPair_cy (s : State) (p : Pair) (d : Byte) : (s.setPair p d).cy = s.cy := rfl
@[simp] theorem State.setPair_regs (s : State) (p : Pair) (d : Byte) : (s.setPair p d).regs = (s.regs.set (evenReg p).toNat (upper4 d)).set (oddReg p).toNat (lower4 d) := rfl
@[simp] theorem State.setPair_dcl (s : State) (p : Pair) (d : Byte) : (s.setPair p d).dcl = s.dcl := rfl
@[simp] theorem State.setPair_sp (s : State) (p : Pair) (d : Byte) : (s.setPair p d).sp = s.sp := rfl
@[simp] theorem State.setPair_stk (s : State) (p : Pair) (d : Byte) : (s.setPair p d).stk = s.stk := rfl
@[simp] theorem State.setPair_stkKnown (s : State) (p : Pair) (d : Byte) : (s.setPair p d).stkKnown = s.stkKnown := rfl
@[simp] theorem State.setPair_rom (s : State) (p : Pair) (d : Byte) : (s.setPair p d).rom = s.rom := rfl
@[simp] theorem State.setPair_romSel (s : State) (p : Pair) (d : Byte) : (s.setPair p d).romSel = s.romSel := rfl
@[simp] theorem State.setPair_romSelSent (s : State) (p : Pair) (d : Byte) : (s.setPair p d).romSelSent = s.romSelSent := rfl
@[simp] theorem State.setPair_romOut (s : State) (p : Pair) (d : Byte) : (s.setPair p d).romOut = s.romOut := rfl
@[simp] theorem State.setPair_ramSel (s : State) (p : Pair) (d : Byte) : (s.setPair p d).ramSel = s.ramSel := rfl
@[simp] theorem State.setPair_ramSelSent (s : State) (p : Pair) (d : Byte) : (s.setPair p d).ramSelSent = s.ramSelSent := rfl
@[simp] theorem State.setPair_ramCh (s : State) (p : Pair) (d : Byte) : (s.setPair p d).ramCh = s.ramCh := rfl
@[simp] theorem State.setPair_ramSt (s : State) (p : Pair) (d : Byte) : (s.setPair p d).ramSt = s.ramSt := rfl
@[simp] theorem State.setPair_ramOut (s : State) (p : Pair) (d : Byte) : (s.setPair p d).ramOut = s.ramOut := rfl
@[simp] theorem State.setPair_testIn (s : State) (p : Pair) (d : Byte) : (s.setPair p d).testIn = s.testIn := rfl
@[simp] theorem State.setPair_romIn (s : State) (p : Pair) (d : Byte) : (s.setPair p d).romIn = s.romIn := rfl
@[simp] theorem State.setPair_resetIn (s : State) (p : Pair) (d : Byte) : (s.setPair p d).resetIn = s.resetIn := rfl
@[simp] theorem State.setPair_platform (s : State) (p : Pair) (d : Byte) : (s.setPair p d).platform = s.platform := rfl
@[simp] theorem State.setPair_draws (s : State) (p : Pair) (d : Byte) : (s.setPair p d).draws = s.draws := rfl
@[simp] theorem State.setPair_ramEpoch (s : State) (p : Pair) (d : Byte) : (s.setPair p d).ramEpoch = s.ramEpoch := rfl

/-! ### `PC <- a` -/

@[simp] theorem State.setPc_acc (s : State) (a : Addr) : (s.setPc a).acc = s.acc := rfl
@[simp] theorem State.setPc_cy (s : State) (a : Addr) : (s.setPc a).cy = s.cy := rfl
@[simp] theorem State.setPc_regs (s : State) (a : Addr) : (s.setPc a).regs = s.regs := rfl
@[simp] theorem State.setPc_dcl (s : State) (a : Addr) : (s.setPc a).dcl = s.dcl := rfl
@[simp] theorem State.setPc_sp (s : State) (a : Addr) : (s.setPc a).sp = s.sp := rfl
@[simp] theorem State.setPc_stk (s : State) (a : Addr) : (s.setPc a).stk = s.stk.set s.sp.toNat a := rfl
@[simp] theorem State.setPc_stkKnown (s : State) (a : Addr) : (s.setPc a).stkKnown = s.stkKnown := rfl
@[simp] theorem State.setPc_rom (s : State) (a : Addr) : (s.setPc a).rom = s.rom := rfl
@[simp] theorem State.setPc_romSel (s : State) (a : Addr) : (s.setPc a).romSel = s.romSel := rfl
@[simp] theorem State.setPc_romSelSent (s : State) (a : Addr) : (s.setPc a).romSelSent = s.romSelSent := rfl
@[simp] theorem State.setPc_romOut (s : State) (a : Addr) : (s.setPc a).romOut = s.romOut := rfl
@[simp] theorem State.setPc_ramSel (s : State) (a : Addr) : (s.setPc a).ramSel = s.ramSel := rfl
@[simp] theorem State.setPc_ramSelSent (s : State) (a : Addr) : (s.setPc a).ramSelSent = s.ramSelSent := rfl
@[simp] theorem State.setPc_ramCh (s : State) (a : Addr) : (s.setPc a).ramCh = s.ramCh := rfl
@[simp] theorem State.setPc_ramSt (s : State) (a : Addr) : (s.setPc a).ramSt = s.ramSt := rfl
@[simp] theorem State.setPc_ramOut (s : State) (a : Addr) : (s.setPc a).ramOut = s.ramOut := rfl
@[simp] theorem State.setPc_testIn (s : State) (a : Addr) : (s.setPc a).testIn = s.testIn := rfl
@[simp] theorem State.setPc_romIn (s : State) (a : Addr) : (s.setPc a).romIn = s.romIn := rfl
@[simp] theorem State.setPc_resetIn (s : State) (a : Addr) : (s.setPc a).resetIn = s.resetIn := rfl
@[simp] theorem State.setPc_platform (s : State) (a : Addr) : (s.setPc a).platform = s.platform := rfl
@[simp] theorem State.setPc_draws (s : State) (a : Addr) : (s.setPc a).draws = s.draws := rfl
@[simp] theorem State.setPc_ramEpoch (s : State) (a : Addr) : (s.setPc a).ramEpoch = s.ramEpoch := rfl

/-! ### `PC <- NEXT`, one word -/

@[simp] theorem State.advance1_acc (s : State) : s.advance1.acc = s.acc := rfl
@[simp] theorem State.advance1_cy (s : State) : s.advance1.cy = s.cy := rfl
@[simp] theorem State.advance1_regs (s : State) : s.advance1.regs = s.regs := rfl
@[simp] theorem State.advance1_dcl (s : State) : s.advance1.dcl = s.dcl := rfl
@[simp] theorem State.advance1_sp (s : State) : s.advance1.sp = s.sp := rfl
@[simp] theorem State.advance1_stk (s : State) : s.advance1.stk = s.stk.set s.sp.toNat s.next1 := rfl
@[simp] theorem State.advance1_stkKnown (s : State) : s.advance1.stkKnown = s.stkKnown := rfl
@[simp] theorem State.advance1_rom (s : State) : s.advance1.rom = s.rom := rfl
@[simp] theorem State.advance1_romSel (s : State) : s.advance1.romSel = s.romSel := rfl
@[simp] theorem State.advance1_romSelSent (s : State) : s.advance1.romSelSent = s.romSelSent := rfl
@[simp] theorem State.advance1_romOut (s : State) : s.advance1.romOut = s.romOut := rfl
@[simp] theorem State.advance1_ramSel (s : State) : s.advance1.ramSel = s.ramSel := rfl
@[simp] theorem State.advance1_ramSelSent (s : State) : s.advance1.ramSelSent = s.ramSelSent := rfl
@[simp] theorem State.advance1_ramCh (s : State) : s.advance1.ramCh = s.ramCh := rfl
@[simp] theorem State.advance1_ramSt (s : State) : s.advance1.ramSt = s.ramSt := rfl
@[simp] theorem State.advance1_ramOut (s : State) : s.advance1.ramOut = s.ramOut := rfl
@[simp] theorem State.advance1_testIn (s : State) : s.advance1.testIn = s.testIn := rfl
@[simp] theorem State.advance1_romIn (s : State) : s.advance1.romIn = s.romIn := rfl
@[simp] theorem State.advance1_resetIn (s : State) : s.advance1.resetIn = s.resetIn := rfl
@[simp] theorem State.advance1_platform (s : State) : s.advance1.platform = s.platform := rfl
@[simp] theorem State.advance1_draws (s : State) : s.advance1.draws = s.draws := rfl
@[simp] theorem State.advance1_ramEpoch (s : State) : s.advance1.ramEpoch = s.ramEpoch := rfl

/-! ### `PC <- NEXT`, two words -/

@[simp] theorem State.advance2_acc (s : State) : s.advance2.acc = s.acc := rfl
@[simp] theorem State.advance2_cy (s : State) : s.advance2.cy = s.cy := rfl
@[simp] theorem State.advance2_regs (s : State) : s.advance2.regs = s.regs := rfl
@[simp] theorem State.advance2_dcl (s : State) : s.advance2.dcl = s.dcl := rfl
@[simp] theorem State.advance2_sp (s : State) : s.advance2.sp = s.sp := rfl
@[simp] theorem State.advance2_stk (s : State) : s.advance2.stk = s.stk.set s.sp.toNat s.next2 := rfl
@[simp] theorem State.advance2_stkKnown (s : State) : s.advance2.stkKnown = s.stkKnown := rfl
@[simp] theorem State.advance2_rom (s : State) : s.advance2.rom = s.rom := rfl
@[simp] theorem State.advance2_romSel (s : State) : s.advance2.romSel = s.romSel := rfl
@[simp] theorem State.advance2_romSelSent (s : State) : s.advance2.romSelSent = s.romSelSent := rfl
@[simp] theorem State.advance2_romOut (s : State) : s.advance2.romOut = s.romOut := rfl
@[simp] theorem State.advance2_ramSel (s : State) : s.advance2.ramSel = s.ramSel := rfl
@[simp] theorem State.advance2_ramSelSent (s : State) : s.advance2.ramSelSent = s.ramSelSent := rfl
@[simp] theorem State.advance2_ramCh (s : State) : s.advance2.ramCh = s.ramCh := rfl
@[simp] theorem State.advance2_ramSt (s : State) : s.advance2.ramSt = s.ramSt := rfl
@[simp] theorem State.advance2_ramOut (s : State) : s.advance2.ramOut = s.ramOut := rfl
@[simp] theorem State.advance2_testIn (s : State) : s.advance2.testIn = s.testIn := rfl
@[simp] theorem State.advance2_romIn (s : State) : s.advance2.romIn = s.romIn := rfl
@[simp] theorem State.advance2_resetIn (s : State) : s.advance2.resetIn = s.resetIn := rfl
@[simp] theorem State.advance2_platform (s : State) : s.advance2.platform = s.platform := rfl
@[simp] theorem State.advance2_draws (s : State) : s.advance2.draws = s.draws := rfl
@[simp] theorem State.advance2_ramEpoch (s : State) : s.advance2.ramEpoch = s.ramEpoch := rfl

/-! ### the stack action of `JMS` -/

@[simp] theorem State.call_acc (s : State) (ret target : Addr) : (s.call ret target).acc = s.acc := rfl
@[simp] theorem State.call_cy (s : State) (ret target : Addr) : (s.call ret target).cy = s.cy := rfl
@[simp] theorem State.call_regs (s : State) (ret target : Addr) : (s.call ret target).regs = s.regs := rfl
@[simp] theorem State.call_dcl (s : State) (ret target : Addr) : (s.call ret target).dcl = s.dcl := rfl
@[simp] theorem State.call_sp (s : State) (ret target : Addr) : (s.call ret target).sp = s.sp + 1 := rfl
@[simp] theorem State.call_stk (s : State) (ret target : Addr) : (s.call ret target).stk = (s.stk.set s.sp.toNat ret).set (s.sp + 1).toNat target := rfl
@[simp] theorem State.call_stkKnown (s : State) (ret target : Addr) : (s.call ret target).stkKnown = (s.stkKnown.set s.sp.toNat true).set (s.sp + 1).toNat true := rfl
@[simp] theorem State.call_rom (s : State) (ret target : Addr) : (s.call ret target).rom = s.rom := rfl
@[simp] theorem State.call_romSel (s : State) (ret target : Addr) : (s.call ret target).romSel = s.romSel := rfl
@[simp] theorem State.call_romSelSent (s : State) (ret target : Addr) : (s.call ret target).romSelSent = s.romSelSent := rfl
@[simp] theorem State.call_romOut (s : State) (ret target : Addr) : (s.call ret target).romOut = s.romOut := rfl
@[simp] theorem State.call_ramSel (s : State) (ret target : Addr) : (s.call ret target).ramSel = s.ramSel := rfl
@[simp] theorem State.call_ramSelSent (s : State) (ret target : Addr) : (s.call ret target).ramSelSent = s.ramSelSent := rfl
@[simp] theorem State.call_ramCh (s : State) (ret target : Addr) : (s.call ret target).ramCh = s.ramCh := rfl
@[simp] theorem State.call_ramSt (s : State) (ret target : Addr) : (s.call ret target).ramSt = s.ramSt := rfl
@[simp] theorem State.call_ramOut (s : State) (ret target : Addr) : (s.call ret target).ramOut = s.ramOut := rfl
@[simp] theorem State.call_testIn (s : State) (ret target : Addr) : (s.call ret target).testIn = s.testIn := rfl
@[simp] theorem State.call_romIn (s : State) (ret target : Addr) : (s.call ret target).romIn = s.romIn := rfl
@[simp] theorem State.call_resetIn (s : State) (ret target : Addr) : (s.call ret target).resetIn = s.resetIn := rfl
@[simp] theorem State.call_platform (s : State) (ret target : Addr) : (s.call ret target).platform = s.platform := rfl
@[simp] theorem State.call_draws (s : State) (ret target : Addr) : (s.call ret target).draws = s.draws := rfl
@[simp] theorem State.call_ramEpoch (s : State) (ret target : Addr) : (s.call ret target).ramEpoch = s.ramEpoch := rfl

/-! ### `ROMSEL <- a[7:4]` -/

@[simp] theorem State.latchRom_acc (s : State) (a : Byte) : (s.latchRom a).acc = s.acc := rfl
@[simp] theorem State.latchRom_cy (s : State) (a : Byte) : (s.latchRom a).cy = s.cy := rfl
@[simp] theorem State.latchRom_regs (s : State) (a : Byte) : (s.latchRom a).regs = s.regs := rfl
@[simp] theorem State.latchRom_dcl (s : State) (a : Byte) : (s.latchRom a).dcl = s.dcl := rfl
@[simp] theorem State.latchRom_sp (s : State) (a : Byte) : (s.latchRom a).sp = s.sp := rfl
@[simp] theorem State.latchRom_stk (s : State) (a : Byte) : (s.latchRom a).stk = s.stk := rfl
@[simp] theorem State.latchRom_stkKnown (s : State) (a : Byte) : (s.latchRom a).stkKnown = s.stkKnown := rfl
@[simp] theorem State.latchRom_rom (s : State) (a : Byte) : (s.latchRom a).rom = s.rom := rfl
@[simp] theorem State.latchRom_romSel (s : State) (a : Byte) : (s.latchRom a).romSel = upper4 a := rfl
@[simp] theorem State.latchRom_romSelSent (s : State) (a : Byte) : (s.latchRom a).romSelSent = true := rfl
@[simp] theorem State.latchRom_romOut (s : State) (a : Byte) : (s.latchRom a).romOut = s.romOut := rfl
@[simp] theorem State.latchRom_ramSel (s : State) (a : Byte) : (s.latchRom a).ramSel = s.ramSel := rfl
@[simp] theorem State.latchRom_ramSelSent (s : State) (a : Byte) : (s.latchRom a).ramSelSent = s.ramSelSent := rfl
@[simp] theorem State.latchRom_ramCh (s : State) (a : Byte) : (s.latchRom a).ramCh = s.ramCh := rfl
@[simp] theorem State.latchRom_ramSt (s : State) (a : Byte) : (s.latchRom a).ramSt = s.ramSt := rfl
@[simp] theorem State.latchRom_ramOut (s : State) (a : Byte) : (s.latchRom a).ramOut = s.ramOut := rfl
@[simp] theorem State.latchRom_testIn (s : State) (a : Byte) : (s.latchRom a).testIn = s.testIn := rfl
@[simp] theorem State.latchRom_romIn (s : State) (a : Byte) : (s.latchRom a).romIn = s.romIn := rfl
@[simp] theorem State.latchRom_resetIn (s : State) (a : Byte) : (s.latchRom a).resetIn = s.resetIn := rfl
@[simp] theorem State.latchRom_platform (s : State) (a : Byte) : (s.latchRom a).platform = s.platform := rfl
@[simp] theorem State.latchRom_draws (s : State) (a : Byte) : (s.latchRom a).draws = s.draws := rfl
@[simp] theorem State.latchRom_ramEpoch (s : State) (a : Byte) : (s.latchRom a).ramEpoch = s.ramEpoch := rfl

end Sys2Proof.Machine
end

