-- ==== Sys2Proof/Laws/Words.lean ====
section
/-! SUPPORT. The halves of a word, the pair field, and decoding a string of words of known length: the facts that a proof
about decoding needs instead of unfolding bit extractions. -/

namespace Sys2Proof

theorem upper4_toNat (w : Byte) : (upper4 w).toNat = w.toNat / 16 := by
  have := w.isLt
  simp [upper4, BitVec.extractLsb'_toNat, Nat.shiftRight_eq_div_pow]
  omega

theorem lower4_toNat (w : Byte) : (lower4 w).toNat = w.toNat % 16 := by
  simp [lower4, BitVec.extractLsb'_toNat]

theorem nibbles_toNat (a b : Nibble) : (a ++ b : Byte).toNat = a.toNat * 16 + b.toNat := by
  rw [BitVec.toNat_append, ← Nat.shiftLeft_add_eq_or_of_lt b.isLt, Nat.shiftLeft_eq]

@[simp] theorem upper4_append (a b : Nibble) : upper4 (a ++ b) = a := by
  have hb := b.isLt
  apply BitVec.eq_of_toNat_eq
  rw [upper4_toNat, nibbles_toNat]
  omega

@[simp] theorem lower4_append (a b : Nibble) : lower4 (a ++ b) = b := by
  have hb := b.isLt
  apply BitVec.eq_of_toNat_eq
  rw [lower4_toNat, nibbles_toNat]
  omega

theorem append_upper4_lower4 (w : Byte) : upper4 w ++ lower4 w = w := by
  apply BitVec.eq_of_toNat_eq
  rw [nibbles_toNat, upper4_toNat, lower4_toNat]
  omega

/-- A word from its halves, as a number. -/
theorem nibbles_eq_ofNat (a b : Nibble) : (a ++ b : Byte) = BitVec.ofNat 8 (a.toNat * 16 + b.toNat) := by
  have ha := a.isLt
  have hb := b.isLt
  apply BitVec.eq_of_toNat_eq
  rw [nibbles_toNat, BitVec.toNat_ofNat]
  omega

/-- The two parts of a 12-bit address put it back together (R106 (d)). -/
theorem address_parts (a : Addr) : (a.extractLsb' 8 4 ++ a.extractLsb' 0 8 : Addr) = a := by
  have ha := a.isLt
  apply BitVec.eq_of_toNat_eq
  rw [BitVec.toNat_append, ← Nat.shiftLeft_add_eq_or_of_lt (a.extractLsb' 0 8).isLt, BitVec.extractLsb'_toNat,
    BitVec.extractLsb'_toNat, Nat.shiftLeft_eq, Nat.shiftRight_eq_div_pow]
  simp only [Nat.shiftRight_zero]
  omega

/-- The pair field and the bit after it, of an `OPA` put together from them. -/
theorem pairField_append (p : Pair) (b : BitVec 1) : pairField (p ++ b) = p := by
  revert p b
  decide

theorem pairBit_append_one (p : Pair) : pairBit (p ++ 1#1) = true := by revert p; decide

theorem pairBit_append_zero (p : Pair) : pairBit (p ++ 0#1) = false := by revert p; decide

/-- The first word of an instruction that names a pair, as a number (R104). -/
theorem pairWord_eq_ofNat (opr : Nibble) (p : Pair) (b : BitVec 1) :
    pairWord opr p b = BitVec.ofNat 8 (opr.toNat * 16 + 2 * p.toNat + b.toNat) := by
  have hp : ∀ (p : Pair) (b : BitVec 1), (p ++ b : Nibble).toNat = 2 * p.toNat + b.toNat := by decide
  rw [pairWord, nibbles_eq_ofNat, hp, Nat.add_assoc]

/-- Decoding a string that begins with a one-word instruction's word. -/
theorem decode_one (w1 : Byte) (rest : List Byte) (h : twoWords w1 = false) :
    decode (w1 :: rest) = decodeAs w1 0 rest := by
  simp [decode, h]

/-- Decoding a string that begins with a two-word instruction's words. -/
theorem decode_two (w1 w2 : Byte) (rest : List Byte) (h : twoWords w1 = true) :
    decode (w1 :: w2 :: rest) = decodeAs w1 w2 rest := by
  simp [decode, h]

/-- What it says that a string of words decodes. -/
theorem decode_eq_ok {ws rest : List Byte} {i : Instr} (h : decode ws = .ok (i, rest)) :
    (∃ w1, ws = w1 :: rest ∧ twoWords w1 = false ∧ decodeWords w1 0 = some i) ∨
    ∃ w1 w2, ws = w1 :: w2 :: rest ∧ twoWords w1 = true ∧ decodeWords w1 w2 = some i := by
  have as_ok : ∀ {w1 w2 : Byte} {tl : List Byte}, decodeAs w1 w2 tl = .ok (i, rest) →
      tl = rest ∧ decodeWords w1 w2 = some i := by
    intro w1 w2 tl h
    unfold decodeAs at h
    split at h
    · rename_i j hj
      injection h with h
      injection h with h1 h2
      exact ⟨h2, h1 ▸ hj⟩
    · cases h
  match ws, h with
  | w1 :: tl, h =>
    cases hw : twoWords w1 with
    | false =>
      obtain ⟨rfl, hd⟩ := as_ok (decode_one w1 tl hw ▸ h)
      exact .inl ⟨w1, rfl, hw, hd⟩
    | true =>
      match tl, h with
      | [], h => simp [decode, hw] at h
      | w2 :: tl, h =>
        obtain ⟨rfl, hd⟩ := as_ok (decode_two w1 w2 tl hw ▸ h)
        exact .inr ⟨w1, w2, rfl, hw, hd⟩

end Sys2Proof
end

