-- ==== Sys2Proof/Laws/Views.lean ====
section
/-! SUPPORT. The named views of State after the named updates: an index register, a pair, a stack level, the PC, `NEXT`,
and that an update of the PC changes nothing else. -/

namespace Sys2Proof.Machine

/-! ### Index registers and pairs -/

theorem State.reg_setReg (s : State) (r q : Reg) (v : Nibble) :
    (s.setReg r v).reg q = if r = q then v else s.reg q := by
  simp [State.setReg, State.reg, Vector.getElem_set, BitVec.toNat_inj]

@[simp] theorem State.reg_setPc (s : State) (a : Addr) (r : Reg) : (s.setPc a).reg r = s.reg r := rfl

@[simp] theorem State.reg_setAcc (s : State) (v : Nibble) (r : Reg) : (s.setAcc v).reg r = s.reg r := rfl

theorem evenReg_toNat (p : Pair) : (evenReg p).toNat = 2 * p.toNat := by revert p; decide

theorem oddReg_toNat (p : Pair) : (oddReg p).toNat = 2 * p.toNat + 1 := by revert p; decide

theorem evenReg_eq (p : Pair) : evenReg p = BitVec.ofNat 4 (2 * p.toNat) := by revert p; decide

theorem oddReg_eq (p : Pair) : oddReg p = BitVec.ofNat 4 (2 * p.toNat + 1) := by revert p; decide

theorem State.pair_toNat (s : State) (p : Pair) :
    (s.pair p).toNat = (s.reg (evenReg p)).toNat * 16 + (s.reg (oddReg p)).toNat := nibbles_toNat _ _

theorem State.reg_setPair (s : State) (p : Pair) (d : Byte) (r : Reg) :
    (s.setPair p d).reg r = if r = evenReg p then upper4 d else if r = oddReg p then lower4 d else s.reg r := by
  have hne : oddReg p ≠ evenReg p := by revert p; decide
  simp only [State.setPair, State.reg_setReg]
  by_cases h1 : r = evenReg p
  · subst h1; simp [hne]
  · by_cases h2 : r = oddReg p
    · subst h2; simp [hne]
    · simp [h1, h2, Ne.symm h1, Ne.symm h2]

/-! ### The address stack -/

theorem State.level_setPc (s : State) (a : Addr) (l : Level) :
    (s.setPc a).level l = if s.sp = l then a else s.level l := by
  simp [State.setPc, State.level, Vector.getElem_set, BitVec.toNat_inj]

@[simp] theorem State.pc_setPc (s : State) (a : Addr) : (s.setPc a).pc = a := by
  simp [State.pc, State.level_setPc]

@[simp] theorem State.levelKnown_setPc (s : State) (a : Addr) (l : Level) :
    (s.setPc a).levelKnown l = s.levelKnown l := rfl

theorem State.level_call (s : State) (ret target : Addr) (l : Level) :
    (s.call ret target).level l = if s.sp + 1 = l then target else if s.sp = l then ret else s.level l := by
  simp [State.call, State.level, Vector.getElem_set, ← BitVec.toNat_inj]

theorem State.levelKnown_call (s : State) (ret target : Addr) (l : Level) :
    (s.call ret target).levelKnown l = (decide (s.sp + 1 = l) || decide (s.sp = l) || s.levelKnown l) := by
  simp only [State.call, State.levelKnown, Vector.getElem_set, BitVec.toNat_inj]
  by_cases h2 : s.sp = l <;> simp [h2]

@[simp] theorem State.pc_call (s : State) (ret target : Addr) : (s.call ret target).pc = target := by
  simp [State.pc, State.level_call]

/-- What a return can do: it moves `SP` down, the level left holds a free value and is marked so, and nothing else
changes; or the level it would make the PC holds no specified address, and it faults (R139, R51). -/
theorem State.returnFromCall_cases (s : State) :
    (s.levelKnown (s.sp - 1) = true ∧ ∃ t, s.returnFromCall = .ok t ∧ t.sp = s.sp - 1 ∧ t.draws = s.draws + 1 ∧
      (∀ l, t.level l = if s.sp = l then Config.freeAddr s.draws else s.level l) ∧
      (∀ l, t.levelKnown l = (s.levelKnown l && !decide (s.sp = l))) ∧
      { t with sp := s.sp, stk := s.stk, stkKnown := s.stkKnown, draws := s.draws } = s) ∨
    (s.levelKnown (s.sp - 1) = false ∧ s.returnFromCall = .error .returnToUnknownLevel) := by
  unfold State.returnFromCall
  cases h : s.levelKnown (s.sp - 1) with
  | false => exact .inr ⟨rfl, rfl⟩
  | true =>
    refine .inl ⟨rfl, _, rfl, rfl, rfl, fun l => ?_, fun l => ?_, rfl⟩
    · simp [State.level, Vector.getElem_set, BitVec.toNat_inj]
    · simp only [State.levelKnown, Vector.getElem_set, BitVec.toNat_inj]
      by_cases h2 : s.sp = l <;> simp [h2]

/-! ### Program addresses as numbers -/

theorem State.next1_eq (s : State) : s.next1 = s.pcPlus 1 := by
  simp [State.next1, State.pcPlus, inc12, BitVec.ofNat_add]

theorem State.next2_eq (s : State) : s.next2 = s.pcPlus 2 := by
  simp [State.next2, State.pcPlus, inc12, BitVec.ofNat_add, add_assoc]

theorem pageTarget_toNat (next : Addr) (a8 : Byte) :
    (pageTarget next a8).toNat = next.toNat / 256 * 256 + a8.toNat := by
  have hn := next.isLt
  rw [pageTarget, BitVec.toNat_append, ← Nat.shiftLeft_add_eq_or_of_lt a8.isLt, BitVec.extractLsb'_toNat,
    Nat.shiftLeft_eq, Nat.shiftRight_eq_div_pow]
  omega

theorem State.pageTarget_eq (s : State) (n : Nat) (a8 : Byte) : pageTarget (s.pcPlus n) a8 = s.inPage n a8 := by
  apply BitVec.eq_of_toNat_eq
  have h1 := (s.pcPlus n).isLt
  have h2 := a8.isLt
  rw [pageTarget_toNat, State.inPage, BitVec.toNat_ofNat]
  omega

@[simp] theorem State.pc_advance1 (s : State) : s.advance1.pc = s.pcPlus 1 := by
  simp [State.advance1, State.next1_eq]

@[simp] theorem State.pc_advance2 (s : State) : s.advance2.pc = s.pcPlus 2 := by
  simp [State.advance2, State.next2_eq]

@[simp] theorem State.pcPlus_setAcc (s : State) (v : Nibble) (n : Nat) : (s.setAcc v).pcPlus n = s.pcPlus n := rfl

@[simp] theorem State.pcPlus_setCy (s : State) (c : Bool) (n : Nat) : (s.setCy c).pcPlus n = s.pcPlus n := rfl

@[simp] theorem State.pcPlus_setAccCy (s : State) (p : Nibble × Bool) (n : Nat) :
    (s.setAccCy p).pcPlus n = s.pcPlus n := rfl

@[simp] theorem State.pcPlus_setDcl (s : State) (v : BitVec 3) (n : Nat) : (s.setDcl v).pcPlus n = s.pcPlus n := rfl

@[simp] theorem State.pcPlus_setReg (s : State) (r : Reg) (v : Nibble) (n : Nat) :
    (s.setReg r v).pcPlus n = s.pcPlus n := rfl

@[simp] theorem State.pcPlus_setPair (s : State) (p : Pair) (d : Byte) (n : Nat) :
    (s.setPair p d).pcPlus n = s.pcPlus n := rfl

/-! ### Nothing else changes -/

theorem State.sameButPc_setPc (s : State) (a : Addr) : s.SameButPc (s.setPc a) :=
  ⟨rfl, fun l hl => by simp [State.level_setPc, hl.symm]⟩

theorem State.sameButPc_advance1 (s : State) : s.SameButPc s.advance1 := s.sameButPc_setPc _

theorem State.sameButPc_advance2 (s : State) : s.SameButPc s.advance2 := s.sameButPc_setPc _

theorem State.sameButAccPc_setAcc (s : State) (v : Nibble) : s.SameButAccPc (s.setAcc v).advance1 :=
  s.sameButPc_advance1

theorem State.sameButAccCyPc_setAccCy (s : State) (p : Nibble × Bool) : s.SameButAccCyPc (s.setAccCy p).advance1 :=
  s.sameButPc_advance1

theorem State.sameButAccCyPc_setCy (s : State) (c : Bool) : s.SameButAccCyPc (s.setCy c).advance1 :=
  s.sameButPc_advance1

theorem State.sameButRegsPc_setReg (s : State) (r : Reg) (v : Nibble) (a : Addr) :
    s.SameButRegsPc ((s.setReg r v).setPc a) fun q => q = r :=
  ⟨s.sameButPc_setPc a, fun q hq => by rw [State.reg_setPc, State.reg_setReg, if_neg fun h => hq h.symm]⟩

end Sys2Proof.Machine
end

