-- ==== Sys2Proof/Laws/Access.lean ====
section
/-! SUPPORT. What the shared operations of a data access can do, said once: sending an address, a RAM write, a RAM read, a
ROM port access, a sampled input. -/

namespace Sys2Proof.Machine

/-! ### Banks -/

theorem banksOf_ne_nil (m : BankMode) (d : BitVec 3) : banksOf m d ≠ [] := by
  revert d
  cases m <;> decide

theorem banksOf_nodup (m : BankMode) (d : BitVec 3) : (banksOf m d).Nodup := by
  revert d
  cases m <;> decide

theorem banksOf_lt (m : BankMode) (d : BitVec 3) :
    ∀ b ∈ banksOf m d, b.toNat < (match m with | .direct => 4 | .decoded => 8) := by
  revert d
  cases m <;> decide

theorem State.banks_lt (s : State) : ∀ b ∈ s.banks, b.toNat < s.platform.nbanks := banksOf_lt _ _

/-! ### Sending an address -/

theorem State.ramAddr_latchRam (a : Byte) (s : State) (b q : Bank) :
    (s.latchRam a b).ramAddr q = if b = q then a else s.ramAddr q := by
  simp [State.latchRam, State.ramAddr, Vector.getElem_set, BitVec.toNat_inj]

theorem State.ramAddrSent_latchRam (a : Byte) (s : State) (b q : Bank) :
    (s.latchRam a b).ramAddrSent q = if b = q then true else s.ramAddrSent q := by
  simp [State.latchRam, State.ramAddrSent, Vector.getElem_set, BitVec.toNat_inj]

/-- Latching an address in a list of banks: those banks have it, the others keep theirs, nothing else changes (R69). -/
theorem State.foldl_latchRam (a : Byte) (bs : List Bank) (s : State) :
    ∃ sel sent, bs.foldl (State.latchRam a) s = { s with ramSel := sel, ramSelSent := sent } ∧
      ∀ q : Bank, sel[q.toNat] = (if q ∈ bs then a else s.ramAddr q) ∧
        sent[q.toNat] = if q ∈ bs then true else s.ramAddrSent q := by
  induction bs generalizing s with
  | nil => exact ⟨s.ramSel, s.ramSelSent, rfl, fun q => ⟨by simp [State.ramAddr], by simp [State.ramAddrSent]⟩⟩
  | cons b bs ih =>
    obtain ⟨sel, sent, h, hq⟩ := ih (s.latchRam a b)
    refine ⟨sel, sent, h, fun q => ⟨?_, ?_⟩⟩
    · rw [(hq q).1, State.ramAddr_latchRam]
      simp only [List.mem_cons, eq_comm (a := q) (b := b)]
      split_ifs <;> tauto
    · rw [(hq q).2, State.ramAddrSent_latchRam]
      simp only [List.mem_cons, eq_comm (a := q) (b := b)]
      split_ifs <;> tauto

/-- What `SRC` does to the latches, and that it does nothing else (R69). -/
theorem State.sendAddress_eq (s : State) (a : Byte) :
    ∃ sel sent, s.sendAddress a =
        { s with romSel := upper4 a, romSelSent := true, ramSel := sel, ramSelSent := sent } ∧
      ∀ q : Bank, sel[q.toNat] = (if q ∈ s.banks then a else s.ramAddr q) ∧
        sent[q.toNat] = if q ∈ s.banks then true else s.ramAddrSent q := by
  obtain ⟨sel, sent, h, hq⟩ := State.foldl_latchRam a s.banks (s.latchRom a)
  exact ⟨sel, sent, h, hq⟩

/-! ### Reaching RAM -/

theorem State.atRam_ready (s : State) (access : List RamTarget → Result) (h : s.RamReady) :
    s.atRam access = access s.ramTargets := by
  have : s.banks.find? (fun b => !s.ramAddrSent b) = none := by
    rw [List.find?_eq_none]
    intro b hb
    simp [h b hb]
  simp [State.atRam, this]

/-- A RAM access that is not ready is refused for a selected bank whose latch was never written (R196). -/
theorem State.atRam_not_ready (s : State) (access : List RamTarget → Result) (h : ¬ s.RamReady) :
    ∃ b ∈ s.banks, s.ramAddrSent b = false ∧ s.atRam access = .refused (.ramAddressNeverSent b) := by
  cases hf : s.banks.find? (fun b => !s.ramAddrSent b) with
  | none =>
    refine absurd (fun b hb => ?_) h
    have := List.find?_eq_none.1 hf b hb
    simpa using this
  | some b =>
    refine ⟨b, List.mem_of_find?_eq_some hf, ?_, by simp [State.atRam, hf]⟩
    simpa using List.find?_some hf

theorem State.storeRam_ready (s : State) (write : State → RamTarget → State) (h : s.RamReady) :
    s.storeRam write = .next (s.ramTargets.foldl write s).advance1 := s.atRam_ready _ h

theorem State.loadRam_ready (s : State) (read : State → RamTarget → Nibble × State) (use : State → Nibble → State)
    (h : s.RamReady) :
    s.loadRam read use = .next (use (s.readOne read s.ramTargets).2 (s.readOne read s.ramTargets).1).advance1 :=
  s.atRam_ready _ h

/-! ### Cells of a target -/

theorem RamTarget.chip_eq (t : RamTarget) : t.chip = t.addr.toNat / 64 := by
  have := t.addr.isLt
  simp [RamTarget.chip, BitVec.extractLsb'_toNat, Nat.shiftRight_eq_div_pow]
  omega

theorem RamTarget.register_eq (t : RamTarget) : t.register = t.addr.toNat / 16 % 4 := by
  simp [RamTarget.register, BitVec.extractLsb'_toNat, Nat.shiftRight_eq_div_pow]

theorem RamTarget.character_eq (t : RamTarget) : t.character = t.addr.toNat % 16 := lower4_toNat _

/-- The SRC address formula of R68 puts the whole address back together. -/
theorem RamTarget.charCell_eq (t : RamTarget) : t.charCell = t.bank.toNat * 256 + t.addr.toNat := by
  rw [RamTarget.charCell, t.chip_eq, t.register_eq, t.character_eq]
  omega

theorem RamTarget.statusCell_eq (t : RamTarget) (n : BitVec 2) :
    t.statusCell n = t.bank.toNat * 64 + t.addr.toNat / 16 * 4 + n.toNat := by
  rw [RamTarget.statusCell, t.chip_eq, t.register_eq]
  omega

/-! ### RAM writes -/

/-- What a RAM access reaches in one of a list of targets, in a populated chip. -/
def reachedIn (s : State) (cellOf : RamTarget → Nat) (ts : List RamTarget) (cell : Nat) : Prop :=
  ∃ t ∈ ts, s.ramPopulated t = true ∧ cell = cellOf t

theorem State.reaches_iff (s : State) (cellOf : RamTarget → Nat) (cell : Nat) :
    s.Reaches cellOf cell ↔ reachedIn s cellOf s.ramTargets cell := by
  simp [State.Reaches, reachedIn, State.ramTargets]

/-- Writing main memory characters at a list of targets: the populated ones have the value, every other character keeps
its own, nothing else changes (R71, R196). -/
theorem State.foldl_writeChar (v : Nibble) (ts : List RamTarget) (s : State) :
    ∃ cs, ts.foldl (State.writeChar v) s = { s with ramCh := cs } ∧
      ∀ cell, (reachedIn s RamTarget.charCell ts cell → { s with ramCh := cs }.charAt cell = v) ∧
        (¬ reachedIn s RamTarget.charCell ts cell → { s with ramCh := cs }.charAt cell = s.charAt cell) := by
  induction ts generalizing s with
  | nil => exact ⟨s.ramCh, rfl, fun cell => ⟨fun ⟨t, ht, _⟩ => absurd ht (by simp), fun _ => rfl⟩⟩
  | cons t ts ih =>
    by_cases hp : s.ramPopulated t = true
    · obtain ⟨cs, h, hc⟩ := ih { s with ramCh := putCell t.charCell v s.ramCh }
      refine ⟨cs, by simpa [State.writeChar, hp] using h, fun cell => ?_⟩
      by_cases hr : reachedIn s RamTarget.charCell ts cell
      · exact ⟨fun _ => (hc cell).1 hr, fun hn => absurd (hr.imp fun x hx => ⟨List.mem_cons_of_mem _ hx.1, hx.2⟩) hn⟩
      · have hkeep := (hc cell).2 hr
        have hput : { s with ramCh := putCell t.charCell v s.ramCh }.charAt cell =
            if cell = t.charCell then v else s.charAt cell := by
          by_cases hcell : cell = t.charCell <;> simp [State.charAt, lookupCell_putCell, hcell]
        refine ⟨fun ⟨x, hx, hxp, hxc⟩ => ?_, fun hn => ?_⟩
        · rcases List.mem_cons.1 hx with rfl | hx
          · exact hkeep.trans (hput.trans (if_pos hxc))
          · exact absurd ⟨x, hx, hxp, hxc⟩ hr
        · exact hkeep.trans (hput.trans (if_neg fun hcell => hn ⟨t, by simp, hp, hcell⟩))
    · obtain ⟨cs, h, hc⟩ := ih s
      refine ⟨cs, by simpa [State.writeChar, hp] using h, fun cell => ?_⟩
      have hiff : reachedIn s RamTarget.charCell (t :: ts) cell ↔ reachedIn s RamTarget.charCell ts cell := by
        simp [reachedIn, hp]
      rw [hiff]
      exact hc cell

/-- As `State.foldl_writeChar`, for the status characters. -/
theorem State.foldl_writeStatus (n : BitVec 2) (v : Nibble) (ts : List RamTarget) (s : State) :
    ∃ cs, ts.foldl (State.writeStatus n v) s = { s with ramSt := cs } ∧
      ∀ cell, (reachedIn s (fun x => x.statusCell n) ts cell → { s with ramSt := cs }.statusAt cell = v) ∧
        (¬ reachedIn s (fun x => x.statusCell n) ts cell → { s with ramSt := cs }.statusAt cell = s.statusAt cell) := by
  induction ts generalizing s with
  | nil => exact ⟨s.ramSt, rfl, fun cell => ⟨fun ⟨t, ht, _⟩ => absurd ht (by simp), fun _ => rfl⟩⟩
  | cons t ts ih =>
    by_cases hp : s.ramPopulated t = true
    · obtain ⟨cs, h, hc⟩ := ih { s with ramSt := putCell (t.statusCell n) v s.ramSt }
      refine ⟨cs, by simpa [State.writeStatus, hp] using h, fun cell => ?_⟩
      by_cases hr : reachedIn s (fun x => x.statusCell n) ts cell
      · exact ⟨fun _ => (hc cell).1 hr, fun hn => absurd (hr.imp fun x hx => ⟨List.mem_cons_of_mem _ hx.1, hx.2⟩) hn⟩
      · have hkeep := (hc cell).2 hr
        have hput : { s with ramSt := putCell (t.statusCell n) v s.ramSt }.statusAt cell =
            if cell = t.statusCell n then v else s.statusAt cell := by
          by_cases hcell : cell = t.statusCell n <;> simp [State.statusAt, lookupCell_putCell, hcell]
        refine ⟨fun ⟨x, hx, hxp, hxc⟩ => ?_, fun hn => ?_⟩
        · rcases List.mem_cons.1 hx with rfl | hx
          · exact hkeep.trans (hput.trans (if_pos hxc))
          · exact absurd ⟨x, hx, hxp, hxc⟩ hr
        · exact hkeep.trans (hput.trans (if_neg fun hcell => hn ⟨t, by simp, hp, hcell⟩))
    · obtain ⟨cs, h, hc⟩ := ih s
      refine ⟨cs, by simpa [State.writeStatus, hp] using h, fun cell => ?_⟩
      have hiff : reachedIn s (fun x => x.statusCell n) (t :: ts) cell ↔
          reachedIn s (fun x => x.statusCell n) ts cell := by
        simp [reachedIn, hp]
      rw [hiff]
      exact hc cell

theorem State.ramPort_writePort (v : Nibble) (s : State) (t : RamTarget) (b : Bank) (c : BitVec 2) :
    (s.writePort v t).ramPort b c =
      if s.ramPopulated t = true ∧ b = t.bank ∧ c.toNat = t.chip then v else s.ramPort b c := by
  have hc := c.isLt
  have ht : t.chip < 4 := (t.addr.extractLsb' 6 2).isLt
  by_cases hp : s.ramPopulated t = true
  · simp only [State.writePort, hp, if_true, State.ramPort, Vector.getElem_set, RamTarget.port, true_and]
    refine if_congr ?_ rfl rfl
    rw [← BitVec.toNat_inj]
    omega
  · simp [State.writePort, hp]

/-- Driving RAM output ports at a list of targets: the populated ones have the value, every other port keeps its own,
nothing else changes (R71, R196). -/
theorem State.foldl_writePort (v : Nibble) (ts : List RamTarget) (s : State) :
    ∃ out, ts.foldl (State.writePort v) s = { s with ramOut := out } ∧
      ∀ (b : Bank) (c : BitVec 2), { s with ramOut := out }.ramPort b c =
        if ∃ t ∈ ts, s.ramPopulated t = true ∧ b = t.bank ∧ c.toNat = t.chip then v else s.ramPort b c := by
  induction ts generalizing s with
  | nil => exact ⟨s.ramOut, rfl, fun b c => by simp⟩
  | cons t ts ih =>
    by_cases hp : s.ramPopulated t = true
    · obtain ⟨out, h, hc⟩ := ih (s.writePort v t)
      have hw : s.writePort v t = { s with ramOut := s.ramOut.set t.port v t.port_lt } := by
        simp [State.writePort, hp]
      rw [hw] at h hc
      refine ⟨out, by rw [List.foldl_cons, hw, h], fun b c => ?_⟩
      have hput : { s with ramOut := s.ramOut.set t.port v t.port_lt }.ramPort b c =
          if b = t.bank ∧ c.toNat = t.chip then v else s.ramPort b c := by
        rw [← hw, State.ramPort_writePort]
        simp only [hp, true_and]
      refine (hc b c).trans ?_
      rw [hput]
      by_cases hx : ∃ x ∈ ts, s.ramPopulated x = true ∧ b = x.bank ∧ c.toNat = x.chip
      · obtain ⟨x, hm, hq⟩ := hx
        exact (if_pos ⟨x, hm, hq⟩).trans (if_pos ⟨x, List.mem_cons_of_mem _ hm, hq⟩).symm
      · refine (if_neg hx).trans (if_congr ?_ rfl rfl)
        refine ⟨fun hb => ⟨t, by simp, hp, hb⟩, fun ⟨x, hm, hq⟩ => ?_⟩
        rcases List.mem_cons.1 hm with rfl | hm
        · exact hq.2
        · exact absurd ⟨x, hm, hq⟩ hx
    · obtain ⟨out, h, hc⟩ := ih s
      have hw : s.writePort v t = s := by simp [State.writePort, hp]
      refine ⟨out, by rw [List.foldl_cons, hw, h], fun b c => ?_⟩
      rw [hc b c]
      simp [hp]

theorem State.romPort_writeRomPort (s : State) (k v q : Nibble) :
    (s.writeRomPort k v).romPort q = if q = k ∧ k.toNat < s.platform.romChips then v else s.romPort q := by
  by_cases hp : k.toNat < s.platform.romChips
  · by_cases hk : q = k
    · simp [State.writeRomPort, State.romChipPopulated, hp, State.romPort, hk]
    · have : k.toNat ≠ q.toNat := fun h => hk (BitVec.eq_of_toNat_eq h.symm)
      simp [State.writeRomPort, State.romChipPopulated, hp, State.romPort, hk, this]
  · simp [State.writeRomPort, State.romChipPopulated, hp]

/-- A ROM port write touches only the port latches. -/
theorem State.writeRomPort_eq (s : State) (k v : Nibble) : ∃ out, s.writeRomPort k v = { s with romOut := out } := by
  unfold State.writeRomPort
  split
  · exact ⟨_, rfl⟩
  · exact ⟨s.romOut, rfl⟩

/-! ### Inputs and free values -/

/-- The condition of `JCN` (R160) as a proposition. -/
theorem jumpTaken_iff (c acc : Nibble) (cy test : Bool) :
    jumpTaken c acc cy test = true ↔
      (((c.getLsbD 2 = true ∧ acc = 0) ∨ (c.getLsbD 1 = true ∧ cy = true) ∨
        (c.getLsbD 0 = true ∧ test = false)) ↔ c.getLsbD 3 = false) := by
  rw [jumpTaken, testsInput]
  generalize c.getLsbD 0 = c0
  generalize c.getLsbD 1 = c1
  generalize c.getLsbD 2 = c2
  generalize c.getLsbD 3 = c3
  by_cases ha : acc = 0 <;> cases c0 <;> cases c1 <;> cases c2 <;> cases c3 <;> cases cy <;> cases test <;> simp [ha]

/-- What sampling `TEST` can do: take the host's oldest sample, or draw; nothing else changes (R48). -/
theorem State.sampleTest_cases (s : State) :
    (∃ v vs, s.testIn = v :: vs ∧ s.sampleTest = (v, { s with testIn := vs })) ∨
    (s.testIn = [] ∧ s.sampleTest = (Config.freeTest s.draws, { s with draws := s.draws + 1 })) := by
  unfold State.sampleTest
  cases h : s.testIn with
  | nil => exact .inr ⟨rfl, rfl⟩
  | cons v vs => exact .inl ⟨v, vs, rfl, rfl⟩

/-- What sampling a ROM chip's input lines can do: take the host's oldest sample for a populated chip, or draw; nothing
else changes (R43, R9). -/
theorem State.sampleRomIn_cases (s : State) (k : Nibble) :
    (k.toNat < s.platform.romChips ∧ ∃ v vs, s.romIn[k.toNat] = v :: vs ∧
      s.sampleRomIn k = (v, { s with romIn := s.romIn.set k.toNat vs })) ∨
    ((s.platform.romChips ≤ k.toNat ∨ s.romIn[k.toNat] = []) ∧ s.sampleRomIn k = s.drawNibble) := by
  unfold State.sampleRomIn
  by_cases hp : k.toNat < s.platform.romChips
  · cases h : s.romIn[k.toNat] with
    | nil => exact .inr ⟨.inr rfl, by simp [State.romChipPopulated, hp]⟩
    | cons v vs => exact .inl ⟨hp, v, vs, rfl, by simp [State.romChipPopulated, hp]⟩
  · exact .inr ⟨.inl (by omega), by simp [State.romChipPopulated, hp]⟩

/-- What the value of a RAM read can be: the cell of the one target in a populated chip, or a draw (R71, R9). -/
theorem State.readChar_cases (s : State) (t : RamTarget) :
    (t.chip < s.platform.ramChipsPerBank ∧ s.readChar t = (s.charAt t.charCell, s)) ∨
    (s.platform.ramChipsPerBank ≤ t.chip ∧ s.readChar t = s.drawNibble) := by
  by_cases hp : t.chip < s.platform.ramChipsPerBank
  · exact .inl ⟨hp, by simp [State.readChar, State.ramPopulated, hp]⟩
  · exact .inr ⟨by omega, by simp [State.readChar, State.ramPopulated, hp]⟩

theorem State.readStatus_cases (n : BitVec 2) (s : State) (t : RamTarget) :
    (t.chip < s.platform.ramChipsPerBank ∧ s.readStatus n t = (s.statusAt (t.statusCell n), s)) ∨
    (s.platform.ramChipsPerBank ≤ t.chip ∧ s.readStatus n t = s.drawNibble) := by
  by_cases hp : t.chip < s.platform.ramChipsPerBank
  · exact .inl ⟨hp, by simp [State.readStatus, State.ramPopulated, hp]⟩
  · exact .inr ⟨by omega, by simp [State.readStatus, State.ramPopulated, hp]⟩

/-! ### One bank selected -/

theorem State.ramReady_of_oneBank {s : State} {b : Bank} {a : Byte} (h : s.OneBank b a) : s.RamReady := by
  intro c hc
  rw [h.1] at hc
  cases List.mem_singleton.1 hc
  exact h.2.1

theorem State.ramTargets_of_oneBank {s : State} {b : Bank} {a : Byte} (h : s.OneBank b a) :
    s.ramTargets = [⟨b, a⟩] := by
  simp [State.ramTargets, h.1, h.2.2]

/-- With one bank selected and a populated chip, a main memory read gives the character at the latched address, and
changes nothing (R72). -/
theorem State.readOne_char {s : State} {b : Bank} {a : Byte} (h : s.OneBank b a)
    (hc : a.toNat / 64 < s.platform.ramChipsPerBank) :
    s.readOne State.readChar s.ramTargets = (s.charAt (b.toNat * 256 + a.toNat), s) := by
  rw [State.ramTargets_of_oneBank h]
  rcases s.readChar_cases ⟨b, a⟩ with ⟨-, hr⟩ | ⟨hn, -⟩
  · exact hr.trans (by rw [RamTarget.charCell_eq])
  · rw [RamTarget.chip_eq] at hn
    exact absurd hc (Nat.not_lt.2 hn)

/-- As `State.readOne_char`, for the status characters. -/
theorem State.readOne_status {s : State} {b : Bank} {a : Byte} (n : BitVec 2) (h : s.OneBank b a)
    (hc : a.toNat / 64 < s.platform.ramChipsPerBank) :
    s.readOne (State.readStatus n) s.ramTargets = (s.statusAt (b.toNat * 64 + a.toNat / 16 * 4 + n.toNat), s) := by
  rw [State.ramTargets_of_oneBank h]
  rcases s.readStatus_cases n ⟨b, a⟩ with ⟨-, hr⟩ | ⟨hn, -⟩
  · exact hr.trans (by rw [RamTarget.statusCell_eq])
  · rw [RamTarget.chip_eq] at hn
    exact absurd hc (Nat.not_lt.2 hn)

/-! ### What a data access can do when it answers a next state -/

theorem State.drawNibble_snd (s : State) : ∃ d, s.drawNibble.2 = { s with draws := d } := ⟨_, rfl⟩

theorem State.readChar_snd (s : State) (t : RamTarget) : ∃ d, (s.readChar t).2 = { s with draws := d } := by
  rcases s.readChar_cases t with ⟨-, h⟩ | ⟨-, h⟩ <;> rw [h] <;> exact ⟨_, rfl⟩

theorem State.readStatus_snd (n : BitVec 2) (s : State) (t : RamTarget) :
    ∃ d, (s.readStatus n t).2 = { s with draws := d } := by
  rcases s.readStatus_cases n t with ⟨-, h⟩ | ⟨-, h⟩ <;> rw [h] <;> exact ⟨_, rfl⟩

theorem State.readOne_snd (s : State) (read : State → RamTarget → Nibble × State)
    (hr : ∀ t, ∃ d, (read s t).2 = { s with draws := d }) (ts : List RamTarget) :
    ∃ d, (s.readOne read ts).2 = { s with draws := d } := by
  unfold State.readOne
  split
  · exact hr _
  · exact s.drawNibble_snd

theorem State.sampleTest_snd (s : State) : ∃ q d, s.sampleTest.2 = { s with testIn := q, draws := d } := by
  rcases s.sampleTest_cases with ⟨v, vs, -, h⟩ | ⟨-, h⟩ <;> rw [h] <;> exact ⟨_, _, rfl⟩

theorem State.sampleRomIn_snd (s : State) (k : Nibble) :
    ∃ q d, (s.sampleRomIn k).2 = { s with romIn := q, draws := d } := by
  rcases s.sampleRomIn_cases k with ⟨-, v, vs, -, h⟩ | ⟨-, h⟩ <;> rw [h] <;> exact ⟨_, _, rfl⟩

/-- A RAM access that answers a next state was ready (R196). -/
theorem State.atRam_next {s t : State} {access : List RamTarget → Result} (h : s.atRam access = .next t) :
    s.RamReady ∧ access s.ramTargets = .next t := by
  by_cases hr : s.RamReady
  · exact ⟨hr, s.atRam_ready access hr ▸ h⟩
  · obtain ⟨b, -, -, hb⟩ := s.atRam_not_ready access hr
    rw [hb] at h
    cases h

theorem State.atRomPort_next {s t : State} {access : Nibble → Result} (h : s.atRomPort access = .next t) :
    s.romSelSent = true ∧ access s.romSel = .next t := by
  unfold State.atRomPort at h
  split at h
  · exact ⟨‹_›, h⟩
  · cases h

theorem State.storeRam_next {s t : State} {write : State → RamTarget → State} (h : s.storeRam write = .next t) :
    s.RamReady ∧ t = (s.ramTargets.foldl write s).advance1 := by
  obtain ⟨hr, h⟩ := State.atRam_next h
  cases h
  exact ⟨hr, rfl⟩

/-- A RAM read hands a value to `use` in a state that differs only in the count of free values drawn. -/
theorem State.loadRam_next {s t : State} {read : State → RamTarget → Nibble × State} {use : State → Nibble → State}
    (hr : ∀ x, ∃ d, (read s x).2 = { s with draws := d }) (h : s.loadRam read use = .next t) :
    s.RamReady ∧ ∃ v d, t = (use { s with draws := d } v).advance1 := by
  obtain ⟨hs, h⟩ := State.atRam_next h
  obtain ⟨d, hd⟩ := s.readOne_snd read hr s.ramTargets
  rw [hd] at h
  cases h
  exact ⟨hs, _, d, rfl⟩

end Sys2Proof.Machine
end

