-- ==== Sys2Proof/Laws/Arithmetic.lean ====
section
/-! SUPPORT. What each arithmetic function of Flags.lean gives, as numbers. -/

namespace Sys2Proof.Machine

theorem add4_toNat (a b : Nibble) (c : Bool) : (add4 a b c).1.toNat = (a.toNat + b.toNat + c.toNat) % 16 := rfl

theorem add4_carry (a b : Nibble) (c : Bool) : (add4 a b c).2 = true ↔ 16 ≤ a.toNat + b.toNat + c.toNat := by
  simp [add4]

theorem not4_toNat (a : Nibble) : (not4 a).toNat = 15 - a.toNat := by simp [not4]

/-- R122: the result of a subtraction as an integer modulo 16. -/
theorem subWithBorrow_toInt (a x : Nibble) (c : Bool) :
    ((subWithBorrow a x c).1.toNat : Int) = ((a.toNat : Int) - x.toNat - c.toNat) % 16 := by
  have ha := a.isLt
  have hx := x.isLt
  rw [subWithBorrow, add4_toNat, not4_toNat]
  cases c <;> simp only [Bool.not_true, Bool.not_false, Bool.toNat_true, Bool.toNat_false] <;> omega

/-- R122: the carry after a subtraction is 1 when there was no borrow. -/
theorem subWithBorrow_carry (a x : Nibble) (c : Bool) :
    (subWithBorrow a x c).2 = true ↔ x.toNat + c.toNat ≤ a.toNat := by
  have ha := a.isLt
  have hx := x.isLt
  rw [subWithBorrow, add4_carry, not4_toNat]
  cases c <;> simp only [Bool.not_true, Bool.not_false, Bool.toNat_true, Bool.toNat_false] <;> omega

theorem rotateLeft_toNat (a : Nibble) (c : Bool) : (rotateLeft a c).1.toNat = (2 * a.toNat + c.toNat) % 16 := by
  revert a c
  decide

theorem rotateLeft_carry (a : Nibble) (c : Bool) : (rotateLeft a c).2 = true ↔ 8 ≤ a.toNat := by
  revert a c
  decide

theorem rotateRight_toNat (a : Nibble) (c : Bool) : (rotateRight a c).1.toNat = a.toNat / 2 + 8 * c.toNat := by
  revert a c
  decide

theorem rotateRight_carry (a : Nibble) (c : Bool) : (rotateRight a c).2 = true ↔ a.toNat % 2 = 1 := by
  revert a c
  decide

theorem decimalAdjust_toNat (a : Nibble) (c : Bool) :
    (decimalAdjust a c).1.toNat = if 9 < a.toNat ∨ c = true then (a.toNat + 6) % 16 else a.toNat := by
  revert a c
  decide

theorem decimalAdjust_carry (a : Nibble) (c : Bool) :
    (decimalAdjust a c).2 = true ↔ c = true ∨ 10 ≤ a.toNat := by
  revert a c
  decide

end Sys2Proof.Machine
end

