-- ==== Sys2Proof/Laws/Canonical.lean ====
section
/-! SUPPORT. Every memory operation keeps the canonical forms: RAM characters stay inside the banks that exist and in
populated chips. Program text is in Cells.lean (`Memory.wf_write`); no instruction writes it. -/

namespace Sys2Proof.Machine

theorem RamTarget.chip_lt (t : RamTarget) : t.chip < 4 := (t.addr.extractLsb' 6 2).isLt

/-- The cell of a main memory character is in its bank, and gives its chip back. -/
theorem RamTarget.charCell_bounds (t : RamTarget) (n : Nat) (h : t.bank.toNat < n) :
    t.charCell < n * 256 ∧ t.charCell % 256 / 64 = t.chip := by
  rw [t.charCell_eq, t.chip_eq]
  have := t.addr.isLt
  omega

/-- As `RamTarget.charCell_bounds`, for the status characters. -/
theorem RamTarget.statusCell_bounds (t : RamTarget) (k : BitVec 2) (n : Nat) (h : t.bank.toNat < n) :
    t.statusCell k < n * 64 ∧ t.statusCell k % 64 / 16 = t.chip := by
  rw [t.statusCell_eq, t.chip_eq]
  have := t.addr.isLt
  have := k.isLt
  omega

/-- The targets of a RAM access are in banks that exist (R70). -/
theorem State.ramTargets_bank_lt (s : State) : ∀ t ∈ s.ramTargets, t.bank.toNat < s.platform.nbanks := by
  intro t ht
  obtain ⟨b, hb, rfl⟩ := List.mem_map.1 ht
  exact s.banks_lt b hb

/-- Main memory writes at targets in existing banks keep the canonical form and reach populated chips only (R9, R45). -/
theorem State.foldl_writeChar_wf (v : Nibble) (ts : List RamTarget) (s : State)
    (hb : ∀ t ∈ ts, t.bank.toNat < s.platform.nbanks)
    (hw : Chars.wf (s.platform.nbanks * 256) s.ramCh = true)
    (hp : ∀ c ∈ s.ramCh, c.1 % 256 / 64 < s.platform.ramChipsPerBank) :
    Chars.wf (s.platform.nbanks * 256) (ts.foldl (State.writeChar v) s).ramCh = true ∧
      ∀ c ∈ (ts.foldl (State.writeChar v) s).ramCh, c.1 % 256 / 64 < s.platform.ramChipsPerBank := by
  induction ts generalizing s with
  | nil => exact ⟨hw, hp⟩
  | cons t ts ih =>
    rw [List.foldl_cons]
    by_cases h : s.ramPopulated t = true
    · have hs : s.writeChar v t = { s with ramCh := putCell t.charCell v s.ramCh } := by simp [State.writeChar, h]
      have hcell := t.charCell_bounds _ (hb t (by simp))
      rw [hs]
      refine ih { s with ramCh := putCell t.charCell v s.ramCh } (fun x hx => hb x (by simp [hx]))
        (Chars.wf_put _ _ _ _ hw hcell.1) fun c hc => ?_
      rcases mem_putCell hc with rfl | hc
      · exact hcell.2 ▸ of_decide_eq_true h
      · exact hp c hc
    · have hs : s.writeChar v t = s := by simp [State.writeChar, h]
      rw [hs]
      exact ih s (fun x hx => hb x (by simp [hx])) hw hp

/-- As `State.foldl_writeChar_wf`, for the status characters (R9, R46). -/
theorem State.foldl_writeStatus_wf (n : BitVec 2) (v : Nibble) (ts : List RamTarget) (s : State)
    (hb : ∀ t ∈ ts, t.bank.toNat < s.platform.nbanks)
    (hw : Chars.wf (s.platform.nbanks * 64) s.ramSt = true)
    (hp : ∀ c ∈ s.ramSt, c.1 % 64 / 16 < s.platform.ramChipsPerBank) :
    Chars.wf (s.platform.nbanks * 64) (ts.foldl (State.writeStatus n v) s).ramSt = true ∧
      ∀ c ∈ (ts.foldl (State.writeStatus n v) s).ramSt, c.1 % 64 / 16 < s.platform.ramChipsPerBank := by
  induction ts generalizing s with
  | nil => exact ⟨hw, hp⟩
  | cons t ts ih =>
    rw [List.foldl_cons]
    by_cases h : s.ramPopulated t = true
    · have hs : s.writeStatus n v t = { s with ramSt := putCell (t.statusCell n) v s.ramSt } := by
        simp [State.writeStatus, h]
      have hcell := t.statusCell_bounds n _ (hb t (by simp))
      rw [hs]
      refine ih { s with ramSt := putCell (t.statusCell n) v s.ramSt } (fun x hx => hb x (by simp [hx]))
        (Chars.wf_put _ _ _ _ hw hcell.1) fun c hc => ?_
      rcases mem_putCell hc with rfl | hc
      · exact hcell.2 ▸ of_decide_eq_true h
      · exact hp c hc
    · have hs : s.writeStatus n v t = s := by simp [State.writeStatus, h]
      rw [hs]
      exact ih s (fun x hx => hb x (by simp [hx])) hw hp

end Sys2Proof.Machine
end

