-- ==== Sys2Proof/Laws/Effects.lean ====
section
/-! SUPPORT. Everything an instruction can do, said once: when `exec` answers a next state, that state is the old one with
one of a few updates. Frame statements are case analyses over `Effect` and never unfold a meaning. -/

namespace Sys2Proof.Machine

/-- What a next state of an instruction can be, by shape. The values written are left open here; the statements about
each instruction give them. -/
inductive Effect : Instr → State → State → Prop
  /-- Only the PC: `NOP`, `WPM`, `JIN`, `JUN`. -/
  | pcOnly {i s a} : (i = .nop ∨ i = .wpm ∨ (∃ p, i = .jin p) ∨ ∃ a12, i = .jun a12) → Effect i s (s.setPc a)
  /-- `JCN`: the PC, and what sampling `TEST` uses up. -/
  | branch {c a8 s q d a} : Effect (.jcn c a8) s ({ s with testIn := q, draws := d }.setPc a)
  /-- `SRC`: the latches. -/
  | latches {p s x y z w a} :
      Effect (.src p) s ({ s with romSel := x, romSelSent := y, ramSel := z, ramSelSent := w }.setPc a)
  /-- `FIN`, `FIM`: the pair named. -/
  | pairWrite {i p s d a} : (i = .fin p ∨ ∃ d8, i = .fim p d8) → Effect i s ((s.setPair p d).setPc a)
  /-- `INC`, `ISZ`: the register named. -/
  | regWrite {i r s v a} : (i = .inc r ∨ ∃ a8, i = .isz r a8) → Effect i s ((s.setReg r v).setPc a)
  /-- `XCH`: the register named and `ACC`. -/
  | exchange {r s v w a} : Effect (.xch r) s (((s.setAcc w).setReg r v).setPc a)
  /-- Loads of `ACC`, `CMA` and `KBP`; a RAM read may use up a free value. -/
  | accWrite {i s v a d} :
      ((∃ r, i = .ld r) ∨ (∃ n, i = .ldm n) ∨ i ∈ [Instr.rdm, .rd0, .rd1, .rd2, .rd3, .cma, .kbp]) →
      Effect i s (({ s with draws := d }.setAcc v).setPc a)
  /-- `RDR`: `ACC`, and what sampling the input lines uses up. -/
  | portRead {s v a q d} : Effect .rdr s (({ s with romIn := q, draws := d }.setAcc v).setPc a)
  /-- The arithmetic that writes `ACC` and `CY`; a RAM read may use up a free value. -/
  | accCyWrite {i s v a d} :
      ((∃ r, i = .add r ∨ i = .sub r) ∨
        i ∈ [Instr.adm, .sbm, .clb, .iac, .dac, .ral, .rar, .tcc, .tcs, .daa]) →
      Effect i s (({ s with draws := d }.setAccCy v).setPc a)
  /-- `CLC`, `CMC`, `STC`. -/
  | cyWrite {i s v a} : i ∈ [Instr.clc, .cmc, .stc] → Effect i s ((s.setCy v).setPc a)
  /-- `DCL`. -/
  | dclWrite {s v a} : Effect .dcl s ((s.setDcl v).setPc a)
  /-- `WRM`. -/
  | charStore {s cs a} : Effect .wrm s ({ s with ramCh := cs }.setPc a)
  /-- `WR0` to `WR3`. -/
  | statusStore {i s cs a} : i ∈ [Instr.wr0, .wr1, .wr2, .wr3] → Effect i s ({ s with ramSt := cs }.setPc a)
  /-- `WMP`. -/
  | ramPortStore {s out a} : Effect .wmp s ({ s with ramOut := out }.setPc a)
  /-- `WRR`. -/
  | romPortStore {s out a} : Effect .wrr s ({ s with romOut := out }.setPc a)
  /-- `JMS`. -/
  | call {s a12 ret target} : Effect (.jms a12) s (s.call ret target)
  /-- `BBL`: the return, and `ACC`. -/
  | ret {d s v t} : s.returnFromCall = .ok t → Effect (.bbl d) s (t.setAcc v)

/-- A return touches only `SP`, the stack and the count of free values. -/
theorem State.returnFromCall_ok {s t : State} (h : s.returnFromCall = .ok t) :
    ∃ x y z d, t = { s with sp := x, stk := y, stkKnown := z, draws := d } := by
  unfold State.returnFromCall at h
  split at h
  · cases h; exact ⟨_, _, _, _, rfl⟩
  · cases h

/-- Inversion of `exec`: a next state is one of the effects. -/
theorem exec_effect {i : Instr} {s t : State} (h : exec i s = .next t) : Effect i s t := by
  cases i
  case nop => cases h; exact .pcOnly (by simp)
  case wpm => cases h; exact .pcOnly (by simp)
  case jin => cases h; exact .pcOnly (by simp)
  case jun => cases h; exact .pcOnly (by simp)
  case jcn c a =>
    simp only [exec, execJcn] at h
    split at h
    · cases h; obtain ⟨q, d, h⟩ := s.sampleTest_snd; rw [h]; exact .branch
    · cases h; exact .branch (q := s.testIn) (d := s.draws)
  case src p =>
    cases h; obtain ⟨q, d, h, -⟩ := s.sendAddress_eq (s.pair p); rw [h]; exact .latches
  case fin p =>
    simp only [exec, execFin] at h; split at h <;> cases h
    exact .pairWrite (.inl rfl)
  case fim => cases h; exact .pairWrite (.inr ⟨_, rfl⟩)
  case inc => cases h; exact .regWrite (.inl rfl)
  case isz => cases h; exact .regWrite (.inr ⟨_, rfl⟩)
  case xch => cases h; exact .exchange
  case rdr =>
    simp only [exec, execRdr] at h
    obtain ⟨-, h⟩ := State.atRomPort_next h
    cases h
    obtain ⟨q, d, h⟩ := s.sampleRomIn_snd s.romSel; rw [h]; exact .portRead
  case rdm =>
    obtain ⟨-, v, d, rfl⟩ := State.loadRam_next s.readChar_snd h
    exact .accWrite (by simp)
  case rd0 =>
    obtain ⟨-, v, d, rfl⟩ := State.loadRam_next (s.readStatus_snd 0) h
    exact .accWrite (by simp)
  case rd1 =>
    obtain ⟨-, v, d, rfl⟩ := State.loadRam_next (s.readStatus_snd 1) h
    exact .accWrite (by simp)
  case rd2 =>
    obtain ⟨-, v, d, rfl⟩ := State.loadRam_next (s.readStatus_snd 2) h
    exact .accWrite (by simp)
  case rd3 =>
    obtain ⟨-, v, d, rfl⟩ := State.loadRam_next (s.readStatus_snd 3) h
    exact .accWrite (by simp)
  case adm =>
    simp only [exec, execAdm] at h
    obtain ⟨-, v, d, rfl⟩ := State.loadRam_next s.readChar_snd h
    exact .accCyWrite (by simp)
  case sbm =>
    simp only [exec, execSbm] at h
    obtain ⟨-, v, d, rfl⟩ := State.loadRam_next s.readChar_snd h
    exact .accCyWrite (by simp)
  case wrm =>
    obtain ⟨-, rfl⟩ := State.storeRam_next h
    obtain ⟨cs, h, -⟩ := State.foldl_writeChar s.acc s.ramTargets s; rw [h]; exact .charStore
  case wr0 =>
    obtain ⟨-, rfl⟩ := State.storeRam_next h
    obtain ⟨cs, h, -⟩ := State.foldl_writeStatus 0 s.acc s.ramTargets s; rw [h]; exact .statusStore (by simp)
  case wr1 =>
    obtain ⟨-, rfl⟩ := State.storeRam_next h
    obtain ⟨cs, h, -⟩ := State.foldl_writeStatus 1 s.acc s.ramTargets s; rw [h]; exact .statusStore (by simp)
  case wr2 =>
    obtain ⟨-, rfl⟩ := State.storeRam_next h
    obtain ⟨cs, h, -⟩ := State.foldl_writeStatus 2 s.acc s.ramTargets s; rw [h]; exact .statusStore (by simp)
  case wr3 =>
    obtain ⟨-, rfl⟩ := State.storeRam_next h
    obtain ⟨cs, h, -⟩ := State.foldl_writeStatus 3 s.acc s.ramTargets s; rw [h]; exact .statusStore (by simp)
  case wmp =>
    obtain ⟨-, rfl⟩ := State.storeRam_next h
    obtain ⟨cs, h, -⟩ := State.foldl_writePort s.acc s.ramTargets s; rw [h]; exact .ramPortStore
  case wrr =>
    simp only [exec, execWrr] at h
    obtain ⟨-, h⟩ := State.atRomPort_next h
    cases h
    obtain ⟨cs, h⟩ := s.writeRomPort_eq s.romSel s.acc; rw [h]; exact .romPortStore
  case jms => cases h; exact .call
  case bbl =>
    simp only [exec, execBbl] at h; split at h <;> cases h
    exact .ret ‹_›
  case dcl => cases h; exact .dclWrite
  case clc => cases h; exact .cyWrite (by simp)
  case cmc => cases h; exact .cyWrite (by simp)
  case stc => cases h; exact .cyWrite (by simp)
  case ld => cases h; exact .accWrite (d := s.draws) (by simp)
  case ldm => cases h; exact .accWrite (d := s.draws) (by simp)
  case cma => cases h; exact .accWrite (d := s.draws) (by simp)
  case kbp => cases h; exact .accWrite (d := s.draws) (by simp)
  all_goals (cases h; exact .accCyWrite (d := s.draws) (by simp))

/-- Program text and platform are kept by every instruction (R84, D13; log 3). -/
theorem exec_keeps_rom {i : Instr} {s t : State} (h : exec i s = .next t) :
    t.rom = s.rom ∧ t.platform = s.platform ∧ t.resetIn = s.resetIn := by
  cases exec_effect h
  case ret hr =>
    obtain ⟨_, _, _, _, rfl⟩ := State.returnFromCall_ok hr
    exact ⟨rfl, rfl, rfl⟩
  all_goals exact ⟨rfl, rfl, rfl⟩

/-- What a next state of a step is: the reset state, or the effect of the instruction fetched. -/
theorem step_next {s t : State} (h : step s = .next t) :
    (s.resetIn = true ∧ t = s.afterReset) ∨
    (s.resetIn = false ∧ ∃ i, s.fetchInstr = .ok i ∧ exec i s = .next t) := by
  unfold step at h
  split at h
  · cases h
    exact .inl ⟨‹_›, rfl⟩
  · rename_i hr
    split at h
    · rename_i i hi
      exact .inr ⟨by simpa using hr, i, hi, h⟩
    · cases h

end Sys2Proof.Machine
end

