-- ==== Sys2Proof/Laws/PerInstr.lean ====
section
/-! SUPPORT. The family `Encoded`, one lemma per instruction: its encoding is one well-formed instruction of its own row of
the opcode table and has the length that its format says (spec/30_encoding.md R100, R104, R108). -/

namespace Sys2Proof.Laws.Encoded

/-- The words of `i` begin with a word of exactly the table row with `i`'s mnemonic, and are as many as `i`'s format has. -/
def Statement (i : Instr) : Prop :=
  (∃ w1 rest row, encode i = w1 :: rest ∧ rowsOf w1 = [row] ∧ row.mnemonic = i.mnemonic ∧ row.words = i.words) ∧
    (encode i).length = i.words ∧ i.wellFormed = true

/-- What has to be looked up for one instruction: the row of its first word, by mnemonic and number of words. -/
theorem of_row (i : Instr) (m : String) (n : Nat) (w1 : Byte) (rest : List Byte) (he : encode i = w1 :: rest)
    (hr : (rowsOf w1).map (fun row => (row.mnemonic, row.words)) = [(m, n)])
    (hm : i.mnemonic = m) (hw : i.words = n) (hl : rest.length + 1 = n) : Statement i := by
  obtain ⟨row, hrow, hmn⟩ := List.map_eq_singleton_iff.1 hr
  obtain ⟨h1, h2⟩ := Prod.mk.inj hmn
  refine ⟨⟨w1, rest, row, he, hrow, h1.trans hm.symm, h2.trans hw.symm⟩, by rw [he, hw]; exact hl, ?_⟩
  simp [Instr.wellFormed, he, wordsWellFormed, hrow, h2, hl]

theorem nop : Statement .nop := of_row _ "NOP" 1 _ _ rfl (by decide) rfl rfl rfl

theorem jcn (c : Nibble) (a8 : Byte) : Statement (.jcn c a8) :=
  of_row _ "JCN" 2 _ _ rfl (by revert c; decide) rfl rfl rfl

theorem fim (p : Pair) (d8 : Byte) : Statement (.fim p d8) :=
  of_row _ "FIM" 2 _ _ rfl (by revert p; decide) rfl rfl rfl

theorem src (p : Pair) : Statement (.src p) :=
  of_row _ "SRC" 1 _ _ rfl (by revert p; decide) rfl rfl rfl

theorem fin (p : Pair) : Statement (.fin p) :=
  of_row _ "FIN" 1 _ _ rfl (by revert p; decide) rfl rfl rfl

theorem jin (p : Pair) : Statement (.jin p) :=
  of_row _ "JIN" 1 _ _ rfl (by revert p; decide) rfl rfl rfl

theorem jun (a12 : Addr) : Statement (.jun a12) :=
  of_row _ "JUN" 2 _ _ rfl (by generalize a12.extractLsb' 8 4 = h; revert h; decide) rfl rfl rfl

theorem jms (a12 : Addr) : Statement (.jms a12) :=
  of_row _ "JMS" 2 _ _ rfl (by generalize a12.extractLsb' 8 4 = h; revert h; decide) rfl rfl rfl

theorem inc (r : Reg) : Statement (.inc r) :=
  of_row _ "INC" 1 _ _ rfl (by revert r; decide) rfl rfl rfl

theorem isz (r : Reg) (a8 : Byte) : Statement (.isz r a8) :=
  of_row _ "ISZ" 2 _ _ rfl (by revert r; decide) rfl rfl rfl

theorem add (r : Reg) : Statement (.add r) :=
  of_row _ "ADD" 1 _ _ rfl (by revert r; decide) rfl rfl rfl

theorem sub (r : Reg) : Statement (.sub r) :=
  of_row _ "SUB" 1 _ _ rfl (by revert r; decide) rfl rfl rfl

theorem ld (r : Reg) : Statement (.ld r) :=
  of_row _ "LD" 1 _ _ rfl (by revert r; decide) rfl rfl rfl

theorem xch (r : Reg) : Statement (.xch r) :=
  of_row _ "XCH" 1 _ _ rfl (by revert r; decide) rfl rfl rfl

theorem bbl (d : Nibble) : Statement (.bbl d) :=
  of_row _ "BBL" 1 _ _ rfl (by revert d; decide) rfl rfl rfl

theorem ldm (d : Nibble) : Statement (.ldm d) :=
  of_row _ "LDM" 1 _ _ rfl (by revert d; decide) rfl rfl rfl

theorem wrm : Statement .wrm := of_row _ "WRM" 1 _ _ rfl (by decide) rfl rfl rfl

theorem wmp : Statement .wmp := of_row _ "WMP" 1 _ _ rfl (by decide) rfl rfl rfl

theorem wrr : Statement .wrr := of_row _ "WRR" 1 _ _ rfl (by decide) rfl rfl rfl

theorem wpm : Statement .wpm := of_row _ "WPM" 1 _ _ rfl (by decide) rfl rfl rfl

theorem wr0 : Statement .wr0 := of_row _ "WR0" 1 _ _ rfl (by decide) rfl rfl rfl

theorem wr1 : Statement .wr1 := of_row _ "WR1" 1 _ _ rfl (by decide) rfl rfl rfl

theorem wr2 : Statement .wr2 := of_row _ "WR2" 1 _ _ rfl (by decide) rfl rfl rfl

theorem wr3 : Statement .wr3 := of_row _ "WR3" 1 _ _ rfl (by decide) rfl rfl rfl

theorem sbm : Statement .sbm := of_row _ "SBM" 1 _ _ rfl (by decide) rfl rfl rfl

theorem rdm : Statement .rdm := of_row _ "RDM" 1 _ _ rfl (by decide) rfl rfl rfl

theorem rdr : Statement .rdr := of_row _ "RDR" 1 _ _ rfl (by decide) rfl rfl rfl

theorem adm : Statement .adm := of_row _ "ADM" 1 _ _ rfl (by decide) rfl rfl rfl

theorem rd0 : Statement .rd0 := of_row _ "RD0" 1 _ _ rfl (by decide) rfl rfl rfl

theorem rd1 : Statement .rd1 := of_row _ "RD1" 1 _ _ rfl (by decide) rfl rfl rfl

theorem rd2 : Statement .rd2 := of_row _ "RD2" 1 _ _ rfl (by decide) rfl rfl rfl

theorem rd3 : Statement .rd3 := of_row _ "RD3" 1 _ _ rfl (by decide) rfl rfl rfl

theorem clb : Statement .clb := of_row _ "CLB" 1 _ _ rfl (by decide) rfl rfl rfl

theorem clc : Statement .clc := of_row _ "CLC" 1 _ _ rfl (by decide) rfl rfl rfl

theorem iac : Statement .iac := of_row _ "IAC" 1 _ _ rfl (by decide) rfl rfl rfl

theorem cmc : Statement .cmc := of_row _ "CMC" 1 _ _ rfl (by decide) rfl rfl rfl

theorem cma : Statement .cma := of_row _ "CMA" 1 _ _ rfl (by decide) rfl rfl rfl

theorem ral : Statement .ral := of_row _ "RAL" 1 _ _ rfl (by decide) rfl rfl rfl

theorem rar : Statement .rar := of_row _ "RAR" 1 _ _ rfl (by decide) rfl rfl rfl

theorem tcc : Statement .tcc := of_row _ "TCC" 1 _ _ rfl (by decide) rfl rfl rfl

theorem dac : Statement .dac := of_row _ "DAC" 1 _ _ rfl (by decide) rfl rfl rfl

theorem tcs : Statement .tcs := of_row _ "TCS" 1 _ _ rfl (by decide) rfl rfl rfl

theorem stc : Statement .stc := of_row _ "STC" 1 _ _ rfl (by decide) rfl rfl rfl

theorem daa : Statement .daa := of_row _ "DAA" 1 _ _ rfl (by decide) rfl rfl rfl

theorem kbp : Statement .kbp := of_row _ "KBP" 1 _ _ rfl (by decide) rfl rfl rfl

theorem dcl : Statement .dcl := of_row _ "DCL" 1 _ _ rfl (by decide) rfl rfl rfl

end Sys2Proof.Laws.Encoded
end

