-- ==== Sys2Proof/Tests/Slice0.lean ====
section
/-! SUPPORT. The model's own tests. Expected values are the vectors V<n> and checks S<n> of spec/95_test_vectors.md, or hand
calculation from the rule named; each test is one step. Then a witness for every statement with hypotheses, at the
values where its clauses meet. -/

namespace Sys2Proof.Tests

open Sys2Proof Sys2Proof.Machine

/-! ### Small states and what a step left in them -/

/-- The reset state with `ACC`, `CY` and some index registers set. -/
def start (acc : Nibble) (cy : Bool) (rs : List (Reg × Nibble)) : State :=
  rs.foldl (fun s r => s.setReg r.1 r.2) (State.reset.setAccCy (acc, cy))

/-- The state about to execute these words, placed at an address. -/
def placed (s : State) (a : Addr) (ws : List Byte) : State := (s.setPc a).loadProgram a ws

/-- What a view shows of the next state, if there is one. -/
def got {α : Type} (r : Result) (f : State → α) : Option α :=
  match r with
  | .next t => some (f t)
  | .fault _ => none
  | .refused _ => none

/-- The refusal, if the step ended in one. -/
def refusal (r : Result) : Option Refusal :=
  match r with
  | .next _ => none
  | .fault _ => none
  | .refused x => some x

/-- The fault, if the step ended in one. -/
def faultOf (r : Result) : Option Fault :=
  match r with
  | .next _ => none
  | .fault x => some x
  | .refused _ => none

/-- `ACC`, `CY` and `PC` after one step at `0x000`. -/
def accCyPc (s : State) (w : Byte) : Option (Nibble × Bool × Addr) := got (step (placed s 0 [w])) fun t => (t.acc, t.cy, t.pc)

/-- A state whose bank `b` is selected and has the address `a` latched. -/
def latched (s : State) (d : BitVec 3) (a : Byte) : State := (s.setDcl d).sendAddress a

/-- The platform with one ROM chip and one RAM chip per bank. -/
def smallPlatform : Platform := { Platform.reference with romChips := 1, ramChipsPerBank := 1 }

/-! ### WellFormed: each check refuses an ill-formed string of words -/

theorem test_wellFormed_accepts_one_word : wordsWellFormed [0x82] = true := by decide
theorem test_wellFormed_accepts_two_words : wordsWellFormed [0x24, 0x93] = true := by decide
theorem test_wellFormed_refuses_empty : wordsWellFormed [] = false := by decide
theorem test_wellFormed_refuses_reserved_low : wordsWellFormed [0x01] = false := by decide
theorem test_wellFormed_refuses_reserved_high : wordsWellFormed [0xFE] = false := by decide
theorem test_wellFormed_refuses_truncated : wordsWellFormed [0x40] = false := by decide
theorem test_wellFormed_refuses_trailing_word : wordsWellFormed [0xF0, 0x00] = false := by decide
theorem test_decode_refuses_truncated : decode [0x7F] = .error .truncated := by decide
theorem test_decode_refuses_reserved : decode [0xFF, 0x12] = .error (.reserved 0xFF) := by decide

/-! ### Decoding: a word written out from R104 and R108 for every constructor -/

theorem test_decode_machine_two_words :
    decode [0b00011010#8, 0b11110001#8] = .ok (.jcn 0b1010 0xF1, []) ∧
    decode [0b00101110#8, 0b00001111#8] = .ok (.fim 7 0x0F, []) ∧
    decode [0b01001111#8, 0b00000001#8] = .ok (.jun 0xF01, []) ∧
    decode [0b01011000#8, 0b01000010#8, 0xC0] = .ok (.jms 0x842, [0xC0]) ∧
    decode [0b01111111#8, 0b10000000#8] = .ok (.isz 15 0x80, []) := by decide

/-- V183 to V187. -/
theorem test_decode_machine_one_word :
    decode [0b00000000#8] = .ok (.nop, []) ∧ decode [0b00100001#8] = .ok (.src 0, []) ∧
    decode [0b00101111#8] = .ok (.src 7, []) ∧ decode [0b00110000#8] = .ok (.fin 0, []) ∧
    decode [0b00111110#8] = .ok (.fin 7, []) ∧ decode [0b00110001#8] = .ok (.jin 0, []) ∧
    decode [0b01101111#8] = .ok (.inc 15, []) := by decide

theorem test_decode_machine_register :
    decode [0b10001001#8] = .ok (.add 9, []) ∧
    decode [0b10010110#8] = .ok (.sub 6, []) ∧ decode [0b10101000#8] = .ok (.ld 8, []) ∧
    decode [0b10110001#8] = .ok (.xch 1, []) ∧ decode [0b11001110#8] = .ok (.bbl 14, []) ∧
    decode [0b11010111#8] = .ok (.ldm 7, []) := by decide

/-- V188: `E0` to `EF`, in order. -/
theorem test_decode_dataAccess :
    [0b11100000#8, 0b11100001#8, 0b11100010#8, 0b11100011#8, 0b11100100#8, 0b11100101#8, 0b11100110#8, 0b11100111#8,
      0b11101000#8, 0b11101001#8, 0b11101010#8, 0b11101011#8, 0b11101100#8, 0b11101101#8, 0b11101110#8,
      0b11101111#8].map (fun w => decodeWords w 0) =
    [.wrm, .wmp, .wrr, .wpm, .wr0, .wr1, .wr2, .wr3, .sbm, .rdm, .rdr, .adm, .rd0, .rd1, .rd2, Instr.rd3].map some := by
  decide

/-- V189: `F0` to `FD`, in order. -/
theorem test_decode_accumulator :
    [0b11110000#8, 0b11110001#8, 0b11110010#8, 0b11110011#8, 0b11110100#8, 0b11110101#8, 0b11110110#8, 0b11110111#8,
      0b11111000#8, 0b11111001#8, 0b11111010#8, 0b11111011#8, 0b11111100#8, 0b11111101#8].map (fun w => decodeWords w 0) =
    [.clb, .clc, .iac, .cmc, .cma, .ral, .rar, .tcc, .dac, .tcs, .stc, .daa, .kbp, Instr.dcl].map some := by decide

/-- The table gives a two-word row its first word in the upper byte; the low-byte numbering is read too (log 17). -/
theorem test_tableWord :
    decodeTableWord 8 0x82 = some (.add 2) ∧ decodeTableWord 16 0x1000 = some (.jcn 0 0) ∧
    decodeTableWord 16 0x0010 = some (.jcn 0 0) ∧ decodeTableWord 8 0x40 = some (.jun 0) ∧
    decodeTableWord 16 0x43A5 = some (.jun 0x3A5) ∧ decodeTableWord 8 0x0F = none := by decide

/-- The step from reset runs the instruction placed by `withFetchWord`: `JUN 0x3A5`. -/
theorem test_withFetchWord : got (step (State.reset.withFetchWord 16 0x43A5)) State.pc = some 0x3A5 := by decide

/-- V181, V182. -/
theorem test_reserved_refused : refusal (step (placed State.reset 0 [0x0F])) = some (.reservedWord 0x0F) := by decide

/-! ### Pairs and banks (S1, S3, S4) -/

theorem test_pair_halves : (start 0 false [(8, 0xA), (9, 3)]).pair 4 = 0xA3 := by decide
theorem test_pair_write : ((start 0 false []).setPair 4 0xA3).reg 9 = 3 := by decide
theorem test_src_address_formula : RamTarget.charCell ⟨0, 0x93⟩ = 2 * 64 + 1 * 16 + 3 := by decide

/-! ### One-word machine instructions -/

/-- V29. -/
theorem test_nop_wraps :
    got (step (placed (start 7 false []) 0xFFF [0x00])) (fun t => (t.acc, t.pc)) = some (7, 0) := by decide
/-- V151. -/
theorem test_src_bank2 :
    got (step (placed ((start 0 false [(0, 0xF), (1, 7)]).setDcl 0b010) 0 [0x21])) (fun t => (t.romSel, t.ramAddr 2, t.ramAddrSent 0)) =
      some (0xF, 0xF7, false) := by decide
/-- V152. -/
theorem test_src_two_banks :
    got (step (placed ((start 0 false [(0, 4)]).setDcl 0b011) 0 [0x21]))
      (fun t => (t.ramAddr 1, t.ramAddr 2, t.ramAddrSent 0, t.ramAddrSent 3)) = some (0x40, 0x40, false, false) := by decide
/-- V66. -/
theorem test_fin_page_end :
    got (step (placed ((start 0 false [(0, 4)]).loadRom 0x340 0xA7) 0x2FF [0x32])) (fun t => (t.reg 2, t.reg 3, t.pc)) =
      some (0xA, 7, 0x300) := by decide
/-- V68. -/
theorem test_fin_old_pair_zero :
    got (step (placed ((start 0 false [(1, 5)]).loadRom 0x105 0xBE) 0x100 [0x30])) (fun t => (t.reg 0, t.reg 1, t.pc)) =
      some (0xB, 0xE, 0x101) := by decide
/-- V63. -/
theorem test_jin_page_end :
    got (step (placed (start 0 false [(6, 2), (7, 0xC)]) 0x1FF [0x37])) State.pc = some 0x22C := by decide
/-- V62. -/
theorem test_jin_in_page :
    got (step (placed (start 0 false [(6, 2), (7, 0xC)]) 0x1FE [0x37])) State.pc = some 0x12C := by decide
/-- V21. -/
theorem test_inc_keeps_carry :
    got (step (placed (start 0 true [(3, 0xF)]) 0 [0x63])) (fun t => (t.reg 3, t.cy, t.pc)) = some (0, true, 1) := by decide
/-- V22. -/
theorem test_inc_keeps_partner :
    got (step (placed (start 0 false [(0, 2), (1, 0xF)]) 0 [0x61])) (fun t => (t.reg 0, t.reg 1)) = some (2, 0) := by decide
/-- V5. -/
theorem test_add_carry_in :
    accCyPc (start 7 true [(2, 8)]) 0x82 = some (0, true, 1) := by decide
/-- V4. -/
theorem test_add_no_carry :
    accCyPc (start 7 false [(2, 8)]) 0x82 = some (15, false, 1) := by decide
/-- V9. -/
theorem test_sub_borrow_in :
    accCyPc (start 5 true [(1, 5)]) 0x91 = some (15, false, 1) := by decide
/-- V8. -/
theorem test_sub_equal :
    accCyPc (start 5 false [(1, 5)]) 0x91 = some (0, true, 1) := by decide
/-- V23. -/
theorem test_ld_keeps_carry :
    accCyPc (start 4 true [(9, 0xB)]) 0xA9 = some (0xB, true, 1) := by decide
/-- V24. -/
theorem test_xch_exchanges :
    got (step (placed (start 2 false [(0, 0xD)]) 0 [0xB0])) (fun t => (t.acc, t.reg 0)) = some (0xD, 2) := by decide
/-- V88. -/
theorem test_bbl_returns :
    got (step (placed { start 0 false [] with sp := 1, stk := (State.reset.stk).set 0 0x012 } 0x300 [0xC5]))
      (fun t => (t.sp, t.pc, t.acc)) = some (0, 0x012, 5) := by decide
/-- V89. -/
theorem test_bbl_wraps_down :
    got (step (placed { start 0 false [] with stk := (State.reset.stk).set 3 0x123 } 0x300 [0xCF]))
      (fun t => (t.sp, t.pc, t.levelKnown 0)) = some (3, 0x123, false) := by decide
/-- V26. -/
theorem test_ldm_keeps_carry :
    accCyPc (start 3 true []) 0xDC = some (0xC, true, 1) := by decide

/-! ### Two-word machine instructions -/

/-- V52. -/
theorem test_jcn_acc_zero_page_end :
    got (step (placed (start 0 false []) 0x1FE [0x14, 0x2A])) State.pc = some 0x22A := by decide
/-- V119, fourth column: `c = 1001` with `TEST = 0`; one sample is used up. -/
theorem test_jcn_inverted_test :
    got (step (placed ((start 5 false []).supplyTest [false, true]) 0x120 [0x19, 0x2A])) (fun t => (t.pc, t.testIn)) =
      some (0x122, [true]) := by decide
/-- V81. -/
theorem test_fim_across_page :
    got (step (placed (start 0 false [(14, 5)]) 0x0FF [0x2E, 0x0F])) (fun t => (t.reg 14, t.reg 15, t.pc)) =
      some (0, 0xF, 0x101) := by decide
/-- V82. -/
theorem test_jun_keeps_sp :
    got (step (placed (start 0 false []) 0x0FF [0x43, 0xA5])) (fun t => (t.pc, t.sp)) = some (0x3A5, 0) := by decide
/-- V85. -/
theorem test_jms_top_of_memory :
    got (step (placed (start 0 false []) 0xFFE [0x51, 0x23])) (fun t => (t.level 0, t.sp, t.pc)) = some (0, 1, 0x123) := by decide
/-- V87. -/
theorem test_jms_wraps_up :
    got (step (placed { start 0 false [] with sp := 3, stk := (State.reset.stk).set 0 0x002 } 0x030 [0x50, 0x40]))
      (fun t => (t.level 3, t.sp, t.level 0, t.pc)) = some (0x032, 0, 0x040, 0x040) := by decide
/-- V71. -/
theorem test_isz_falls_through :
    got (step (placed (start 0 true [(4, 0xF)]) 0x020 [0x74, 0x10])) (fun t => (t.reg 4, t.pc, t.cy)) =
      some (0, 0x022, true) := by decide
/-- V73. -/
theorem test_isz_page_end :
    got (step (placed (start 0 false [(4, 3)]) 0x1FF [0x74, 0x10])) (fun t => (t.reg 4, t.pc)) = some (4, 0x210) := by decide

/-! ### Data access instructions -/

/-- V154. -/
theorem test_wrm_stores :
    got (step (placed (latched (start 6 true []) 0 0x93) 0 [0xE0])) (fun t => (t.charAt 0x93, t.acc, t.cy)) = some (6, 6, true) := by decide
/-- V167. -/
theorem test_wrm_two_banks :
    got (step (placed (latched (latched (start 7 false []) 1 0x40) 2 0x12 |>.setDcl 0b011) 0 [0xE0]))
      (fun t => t.ramCh) = some [(1 * 256 + 0x40, 7), (2 * 256 + 0x12, 7)] := by decide
/-- V163. -/
theorem test_wmp_drives :
    got (step (placed (latched (start 0xA false []) 1 0x47) 0 [0xE1])) (fun t => (t.ramPort 1 1, t.ramPort 0 1, t.ramPort 1 0)) =
      some (0xA, 0, 0) := by decide
/-- V164. -/
theorem test_wrr_ignores_dcl :
    got (step (placed ((latched (start 5 false []) 0 0x90).setDcl 0b011) 0 [0xE2])) (fun t => (t.romPort 9, t.romPort 0)) =
      some (5, 0) := by decide
/-- V166. -/
theorem test_wpm_only_advances :
    got (step (placed (start 3 false []) 0x040 [0xE3])) (fun t => (t.acc, t.pc, t.rom)) =
      some (3, 0x041, [(0x040, 0xE3)]) := by decide
/-- V159. -/
theorem test_wr0_stores :
    got (step (placed (latched (start 0xF false []) 0 0x93) 0 [0xE4])) (fun t => (t.ramSt, t.ramCh)) =
      some ([(2 * 16 + 1 * 4 + 0, 0xF)], []) := by decide
/-- R185, example. -/
theorem test_wr1_stores :
    got (step (placed (latched (start 1 false []) 0 0x00) 0 [0xE5])) (fun t => t.ramSt) = some [(1, 1)] := by decide
/-- V161. -/
theorem test_wr2_stores :
    got (step (placed (latched (start 8 false []) 0b010 0xF7) 0 [0xE6])) (fun t => t.ramSt) =
      some [(2 * 64 + 3 * 16 + 3 * 4 + 2, 8)] := by decide
/-- V162. -/
theorem test_wr3_stores :
    got (step (placed (latched (start 4 false []) 0 0x10) 0 [0xE7])) (fun t => t.ramSt) = some [(1 * 4 + 3, 4)] := by decide
/-- V157. -/
theorem test_sbm_no_borrow :
    accCyPc { latched (start 7 false []) 0 0x93 with ramCh := [(0x93, 2)] } 0xE8 = some (5, true, 1) := by decide
/-- V158. -/
theorem test_sbm_borrow :
    accCyPc { latched (start 7 false []) 0 0x93 with ramCh := [(0x93, 9)] } 0xE8 = some (14, false, 1) := by decide
/-- V155. -/
theorem test_rdm_keeps_carry :
    accCyPc { latched (start 0 true []) 0 0x93 with ramCh := [(0x93, 6)] } 0xE9 = some (6, true, 1) := by decide
/-- V172. -/
theorem test_rdm_own_latch :
    accCyPc { latched (latched (start 0 false []) 0 0x15) 1 0x2A with ramCh := [(0x15, 9), (256 + 0x2A, 4)] } 0xE9 =
      some (4, false, 1) := by decide
/-- V165. -/
theorem test_rdr_not_tied :
    got (step (placed ({ latched (start 0 false []) 0 0x20 with romOut := (State.reset.romOut).set 2 0b0101 }.supplyRomIn 2 [0b1010]) 0 [0xEA]))
      (fun t => (t.acc, t.romPort 2, t.romIn[2])) = some (0b1010, 0b0101, []) := by decide
/-- V156. -/
theorem test_adm_carry :
    accCyPc { latched (start 9 true []) 0 0x93 with ramCh := [(0x93, 6)] } 0xEB = some (0, true, 1) := by decide
/-- V160. -/
theorem test_rd0_reads :
    accCyPc { latched (start 0 true []) 0 0x9C with ramSt := [(2 * 16 + 1 * 4 + 0, 0xF)] } 0xEC = some (0xF, true, 1) := by decide
/-- R193, example. -/
theorem test_rd1_reads :
    accCyPc { latched (start 0 true []) 0 0x05 with ramSt := [(1, 1)] } 0xED = some (1, true, 1) := by decide
/-- V161, R194. -/
theorem test_rd2_reads :
    accCyPc { latched (start 0 true []) 0b010 0xF0 with ramSt := [(2 * 64 + 3 * 16 + 3 * 4 + 2, 8)] } 0xEE = some (8, true, 1) := by decide
/-- R195, example. -/
theorem test_rd3_reads :
    accCyPc { latched (start 0 true []) 0 0x1A with ramSt := [(1 * 4 + 3, 4)] } 0xEF = some (4, true, 1) := by decide
/-- V170. -/
theorem test_wrr_before_src :
    refusal (step (placed State.reset 0 [0xE2])) = some .romPortNeverSelected := by decide
/-- As V171, which has `RDM`. -/
theorem test_adm_other_bank_never_sent :
    refusal (step (placed ((latched State.reset 0 0x15).setDcl 1) 0 [0xEB])) = some (.ramAddressNeverSent 1) := by decide

/-! ### Accumulator group -/

/-- V30. -/
theorem test_clb :
    accCyPc (start 11 true []) 0xF0 = some (0, false, 1) := by decide
/-- V31. -/
theorem test_clc :
    accCyPc (start 11 true []) 0xF1 = some (11, false, 1) := by decide
/-- V33. -/
theorem test_iac_wraps :
    accCyPc (start 15 true []) 0xF2 = some (0, true, 1) := by decide
/-- V34. -/
theorem test_iac_clears_carry :
    accCyPc (start 4 true []) 0xF2 = some (5, false, 1) := by decide
/-- V37. -/
theorem test_cmc :
    accCyPc (start 11 true []) 0xF3 = some (11, false, 1) := by decide
/-- V39. -/
theorem test_cma_keeps_carry :
    accCyPc (start 11 true []) 0xF4 = some (4, true, 1) := by decide
/-- V40. -/
theorem test_ral_carry_out :
    accCyPc (start 0b1001 false []) 0xF5 = some (0b0010, true, 1) := by decide
/-- V41. -/
theorem test_ral_carry_in :
    accCyPc (start 0b0010 true []) 0xF5 = some (0b0101, false, 1) := by decide
/-- V44. -/
theorem test_rar_carry_out :
    accCyPc (start 0b1001 false []) 0xF6 = some (0b0100, true, 1) := by decide
/-- V45. -/
theorem test_rar_carry_in :
    accCyPc (start 0b0100 true []) 0xF6 = some (0b1010, false, 1) := by decide
/-- V48. -/
theorem test_tcc :
    accCyPc (start 11 true []) 0xF7 = some (1, false, 1) := by decide
/-- V51. -/
theorem test_dac_borrows :
    accCyPc (start 0 true []) 0xF8 = some (15, false, 1) := by decide
/-- V54. -/
theorem test_dac_no_borrow :
    accCyPc (start 1 false []) 0xF8 = some (0, true, 1) := by decide
/-- V57. -/
theorem test_tcs_nine :
    accCyPc (start 5 false []) 0xF9 = some (9, false, 1) := by decide
/-- V56. -/
theorem test_tcs_ten :
    accCyPc (start 11 true []) 0xF9 = some (10, false, 1) := by decide
/-- V58. -/
theorem test_stc :
    accCyPc (start 5 false []) 0xFA = some (5, true, 1) := by decide
/-- V93. -/
theorem test_daa_sets_carry :
    accCyPc (start 12 false []) 0xFB = some (2, true, 1) := by decide
/-- V97. -/
theorem test_daa_keeps_carry :
    accCyPc (start 9 true []) 0xFB = some (15, true, 1) := by decide
/-- V100. -/
theorem test_kbp_one_bit :
    accCyPc (start 4 true []) 0xFC = some (3, true, 1) := by decide
/-- V100. -/
theorem test_kbp_two_bits :
    accCyPc (start 6 false []) 0xFC = some (15, false, 1) := by decide
/-- V104. -/
theorem test_dcl_ignores_bit3 :
    got (step (placed ((start 0b1000 false []).setDcl 0b101) 0 [0xFD])) (fun t => (t.dcl, t.acc)) = some (0, 0b1000) := by decide

/-! ### Reset and fetch -/

/-- R280 to R284. -/
theorem test_reset_keeps_program :
    got (step ((placed (start 9 true [(3, 3)]) 0x123 [0xD5]).assertReset)) (fun t => (t.acc, t.reg 3, t.pc, t.romByte 0x123, t.resetIn)) =
      some (0, 0, 0, 0xD5, false) := by decide
/-- U11. -/
theorem test_fetch_missing_chip :
    refusal (step { placed State.reset 0x100 [0x00] with platform := smallPlatform }) = some (.romNotPopulated 0x100) := by decide

/-! ### Witnesses: every statement with hypotheses has a state that meets them -/

/-- A state with bank 0 selected, an address of the last chip latched, the host having supplied inputs. -/
def ready : State := ((latched (start 9 true [(0, 9), (1, 15)]) 0 0xFF).supplyTest [true]).supplyRomIn 15 [3]

/-- `ready` with two banks selected and an address latched in each. -/
def readyTwo : State := (latched (latched (start 5 false []) 1 0x40) 2 0x80).setDcl 0b011

theorem witness_EncodeOfDecode : decode [0x20, 0x93, 0x55] = .ok (.fim 0 0x93, [0x55]) := by decide

theorem witness_ReservedWordsRefused : ∀ w ∈ [0x01#8, 0x0F#8, 0xFE#8, 0xFF#8],
    (placed State.reset 0 [w]).resetIn = false ∧
    (placed State.reset 0 [w]).romChipPopulated ((placed State.reset 0 [w]).pc.extractLsb' 8 4) = true ∧
    (placed State.reset 0 [w]).romByte (placed State.reset 0 [w]).pc = w ∧
    ((1 ≤ w.toNat ∧ w.toNat ≤ 15) ∨ 254 ≤ w.toNat) := by decide

theorem witness_LengthFromFirstWord : decodeWords 0x1F 0 = some (.jcn 15 0) ∧ decodeWords 0x2E 7 = some (.fim 7 7) ∧
    decodeWords 0x2F 7 = some (.src 7) ∧ decodeWords 0x60 0 = some (.inc 0) := by decide

/-- A one-word instruction in the last word of the last populated chip, and a two-word one across two chips. -/
theorem witness_StepRunsDecodedInstruction :
    (let s := { placed State.reset 0x0FF [0xD5] with platform := smallPlatform }
     s.resetIn = false ∧ s.romChipPopulated (s.pc.extractLsb' 8 4) = true ∧
      (Instr.words (.ldm 5) = 2 → s.romChipPopulated ((inc12 s.pc).extractLsb' 8 4) = true) ∧
      decode [s.romByte s.pc, s.romByte (inc12 s.pc)] = .ok (.ldm 5, [0])) ∧
    (let s := placed State.reset 0x0FF [0x43, 0xA5]
     s.resetIn = false ∧ s.romChipPopulated (s.pc.extractLsb' 8 4) = true ∧
      (Instr.words (.jun 0x3A5) = 2 → s.romChipPopulated ((inc12 s.pc).extractLsb' 8 4) = true) ∧
      decode [s.romByte s.pc, s.romByte (inc12 s.pc)] = .ok (.jun 0x3A5, [])) := by decide

theorem witness_MissingRomRefused :
    (let s := { placed State.reset 0x100 [] with platform := smallPlatform }
     s.resetIn = false ∧ s.platform.romChips ≤ s.pc.toNat / 256) ∧
    (let s := { placed State.reset 0x0FF [0x40] with platform := smallPlatform }
     s.resetIn = false ∧ s.pc.toNat / 256 < s.platform.romChips ∧ s.platform.romChips ≤ (s.pcPlus 1).toNat / 256 ∧
      twoWords (s.romByte s.pc) = true) := by decide

theorem witness_ResetEventReplacesState :
    ready.assertReset.resetIn = true ∧ ready.assertReset.platform.resetClearsAll = true ∧
    (let s := { ready.assertReset with platform := { Platform.reference with resetClearsAll := false } }
     s.resetIn = true ∧ s.platform.resetClearsAll = false ∧ (1 : Level) ≠ 0) := by decide

theorem witness_ResetSelectsBankZero :
    (start 9 true []).platform.bankMode = .direct ∧ (start 9 true []).dcl = 0b000#3 := by decide

theorem witness_FinLoadsRomByte :
    (let s := { placed State.reset 0x0FE [0x30] with platform := smallPlatform }
     (s.pcPlus 1).toNat / 256 < s.platform.romChips) := by decide

theorem witness_BblReturns : (State.reset.call 0x012 0x200).levelKnown ((State.reset.call 0x012 0x200).sp - 1) = true := by
  decide

/-- Right after a reset that clears nothing, and into the level that an earlier return left. -/
theorem witness_OnlyUnknownReturnFaults :
    (let s := State.bootOn { Platform.reference with resetClearsAll := false }
     s.levelKnown (s.sp - 1) = false ∧ exec (.bbl 0) s = .fault .returnToUnknownLevel) ∧
    got (exec (.bbl 0) State.reset) (fun t => t.levelKnown (t.sp - 3)) = some false := ⟨⟨by decide, rfl⟩, by decide⟩

theorem witness_JcnJumpsOnCondition :
    BitVec.getLsbD (0b1110 : Nibble) 0 = false ∧
    (BitVec.getLsbD (0b1111 : Nibble) 0 = true ∧ ready.testIn = true :: []) ∧
    (BitVec.getLsbD (0b0001 : Nibble) 0 = true ∧ State.reset.testIn = []) := by decide

theorem ready_RamReady : ready.RamReady := by
  have hb : ready.banks = [0] := by decide
  intro b h
  rw [hb] at h
  cases List.mem_singleton.1 h
  decide

theorem readyTwo_RamReady : readyTwo.RamReady := by
  have hb : readyTwo.banks = [1, 2] := by decide
  have h1 : readyTwo.ramAddrSent 1 = true := by decide
  have h2 : readyTwo.ramAddrSent 2 = true := by decide
  intro b h
  rw [hb] at h
  rcases List.mem_cons.1 h with rfl | h
  · exact h1
  · cases List.mem_singleton.1 h
    exact h2

theorem ready_OneBank : ready.OneBank 0 0xFF := ⟨by decide, by decide, by decide⟩

/-- Cells 0xFF (reached) and 0xFE (not reached) of bank 0. -/
theorem witness_WrmStoresCharacter :
    ready.RamReady ∧ ready.Reaches RamTarget.charCell 0xFF ∧ ¬ ready.Reaches RamTarget.charCell 0xFE := by
  have hb : ready.banks = [0] := by decide
  refine ⟨ready_RamReady, ⟨0, by rw [hb]; simp, by decide, by decide⟩, fun ⟨b, h, _, hc⟩ => ?_⟩
  rw [hb] at h
  cases List.mem_singleton.1 h
  exact absurd hc (by decide)

/-- Both banks' ports and a third one. -/
theorem witness_WmpDrivesRamPort :
    readyTwo.RamReady ∧ readyTwo.banks = [1, 2] ∧ (readyTwo.ramAddr 1).toNat / 64 = 1 ∧
    (readyTwo.ramAddr 2).toNat / 64 = 2 ∧ 2 < readyTwo.platform.ramChipsPerBank :=
  ⟨readyTwo_RamReady, by decide, by decide, by decide, by decide⟩

theorem witness_WrrDrivesRomPort : ready.romSelSent = true ∧ ready.romSel = 15 ∧ 15 < ready.platform.romChips := by decide

/-- Status cell 63 - 3 + n of bank 0 is reached, its neighbour is not. -/
theorem witness_StatusStores : ready.RamReady ∧
    ready.Reaches (fun x => x.statusCell 3) 63 ∧ ¬ ready.Reaches (fun x => x.statusCell 3) 62 := by
  have hb : ready.banks = [0] := by decide
  refine ⟨ready_RamReady, ⟨0, by rw [hb]; simp, by decide, by decide⟩, fun ⟨b, h, _, hc⟩ => ?_⟩
  rw [hb] at h
  cases List.mem_singleton.1 h
  exact absurd hc (by decide)

theorem witness_RamReads : ready.OneBank 0 0xFF ∧ (0xFF#8).toNat / 64 < ready.platform.ramChipsPerBank ∧
    ({ ready with ramCh := [(255, 4)] } : State).charAt (0 * 256 + 255) = 4 ∧
    ({ ready with ramCh := [(255, 4)] } : State).OneBank 0 0xFF :=
  ⟨ready_OneBank, by decide, by decide, by decide, by decide, by decide⟩

theorem witness_StatusReads : ready.OneBank 0 0xFF ∧ (0xFF#8).toNat / 64 < ready.platform.ramChipsPerBank :=
  ⟨ready_OneBank, by decide⟩

theorem witness_RdrReadsInputLines :
    (ready.romSelSent = true ∧ ready.romSel.toNat < ready.platform.romChips ∧ ready.romIn[ready.romSel.toNat] = 3 :: []) ∧
    (readyTwo.romSelSent = true ∧ readyTwo.romIn[readyTwo.romSel.toNat] = []) ∧
    (let s := { ready with platform := smallPlatform }
     s.romSelSent = true ∧ s.platform.romChips ≤ s.romSel.toNat) := by decide

theorem witness_UndrivenReadsAreFree :
    (readyTwo.RamReady ∧ 2 ≤ readyTwo.banks.length) ∧
    (({ ready with platform := smallPlatform } : State).RamReady ∧
      ({ ready with platform := smallPlatform } : State).banks = [0] ∧
      smallPlatform.ramChipsPerBank ≤ (({ ready with platform := smallPlatform } : State).ramAddr 0).toNat / 64) :=
  ⟨⟨readyTwo_RamReady, by decide⟩, ready_RamReady, by decide, by decide⟩

theorem witness_AccessBeforeSrcRefused :
    ¬ State.reset.RamReady ∧ ¬ (ready.setDcl 1).RamReady ∧ State.reset.romSelSent = false := by
  have h1 : (0 : Bank) ∈ State.reset.banks := by decide
  have h2 : (1 : Bank) ∈ (ready.setDcl 1).banks := by decide
  exact ⟨fun h => absurd (h 0 h1) (by decide), fun h => absurd (h 1 h2) (by decide), by decide⟩

/-- Banks 1 and 2 selected, an address sent to bank 1 only (log 20). -/
def mixed : State := (latched State.reset 1 0x40).setDcl 0b011

theorem witness_AccessBeforeSrcRefused_several_banks :
    ¬ mixed.RamReady ∧ mixed.banks = [1, 2] ∧ mixed.ramAddrSent 1 = true ∧
    refusal (exec .wrm mixed) = some (.ramAddressNeverSent 2) := by
  have h : (2 : Bank) ∈ mixed.banks := by decide
  exact ⟨fun hr => absurd (hr 2 h) (by decide), by decide, by decide, by decide⟩

theorem witness_RotatesThroughCarry : ∃ t1 t2 t3 t4 t5, exec .ral ready = .next t1 ∧ exec .ral t1 = .next t2 ∧
    exec .ral t2 = .next t3 ∧ exec .ral t3 = .next t4 ∧ exec .ral t4 = .next t5 :=
  ⟨_, _, _, _, _, rfl, rfl, rfl, rfl, rfl⟩

theorem witness_RotatesBackAndForth :
    (∃ t u, exec .ral ready = .next t ∧ exec .rar t = .next u) ∧ ∃ t u, exec .rar ready = .next t ∧ exec .ral t = .next u :=
  ⟨⟨_, _, rfl, rfl⟩, _, _, rfl, rfl⟩

/-- Both digits 9. -/
theorem witness_DecimalAddition : ready.acc.toNat ≤ 9 ∧ (ready.reg 0).toNat ≤ 9 ∧ ∃ t, exec (.add 0) ready = .next t :=
  ⟨by decide, by decide, _, rfl⟩

/-- One instruction outside each exception of the statement, and each exception itself. -/
theorem witness_OnlyStoresWriteMemory : ∃ t, exec .nop ready = .next t := ⟨_, rfl⟩

theorem witness_IndexRegisterWriters :
    got (exec (.inc 15) ready) (fun t => decide (t.reg 15 ≠ ready.reg 15)) = some true := by decide

theorem witness_AccumulatorAndCarryWriters :
    got (exec .clb ready) (fun t => decide (t.cy ≠ ready.cy ∧ t.acc ≠ ready.acc)) = some true := by decide

theorem witness_ControlStateWriters : ∃ t, exec (.ldm 3) ready = .next t := ⟨_, rfl⟩

theorem witness_StepsKeepProgramAndPlatform :
    (∃ t, step (placed State.reset 0 [0xD5]) = .next t) ∧ ∃ t, step ready.assertReset = .next t := ⟨⟨_, rfl⟩, _, rfl⟩

theorem witness_InstructionsRefuseOnlyByDuty :
    refusal (exec .wrm State.reset) = some (.ramAddressNeverSent 0) ∧
    refusal (exec .wrr State.reset) = some .romPortNeverSelected ∧
    refusal (exec (.fin 0) { placed State.reset 0x0FF [] with platform := smallPlatform }) = some (.romNotPopulated 0x100) := by
  decide

theorem witness_ResetMeetsInvariant : smallPlatform.legal = true := by decide

/-- A state with program text, a written character, both a latch and `ROMSEL` sent. -/
theorem witness_EveryStepKeepsInvariant :
    ({ placed ready 0x123 [0xE0] with ramCh := [(255, 4)] } : State).Inv ∧
    ∃ t, step { placed ready 0x123 [0xE0] with ramCh := [(255, 4)] } = .next t := by
  refine ⟨⟨by decide, by decide, by decide, by decide, by decide, by decide, by decide, fun _ _ => by decide, ?_⟩, _, rfl⟩
  decide

theorem witness_CallThenReturnResumes : ∃ t, exec (.jms 0x200) State.reset = .next t ∧
    (t.setAcc 7).sp = t.sp ∧ (t.setAcc 7).level State.reset.sp = t.level State.reset.sp ∧
    (t.setAcc 7).levelKnown State.reset.sp = t.levelKnown State.reset.sp := ⟨_, rfl, rfl, rfl, rfl⟩

theorem witness_FourthNestedCallLosesFirstReturn : ∃ t1 t2 t3 t4, exec (.jms 0x010) State.reset = .next t1 ∧
    exec (.jms 0x020) t1 = .next t2 ∧ exec (.jms 0x030) t2 = .next t3 ∧ exec (.jms 0x040) t3 = .next t4 :=
  ⟨_, _, _, _, rfl, rfl, rfl, rfl⟩

/-- Between write and read another character is written, after another `SRC`, and the address is sent again. -/
theorem witness_ReadReturnsLastWrite :
    ready.OneBank 0 0xFF ∧ (0xFF#8).toNat / 64 < ready.platform.ramChipsPerBank ∧
    ∃ t u, exec .wrm ready = .next t ∧ exec .wrm ((t.setAcc 5).sendAddress 0xFE) = .next u ∧
      (u.sendAddress 0xFF).OneBank 0 0xFF ∧ (u.sendAddress 0xFF).platform = ready.platform ∧
      (u.sendAddress 0xFF).charAt (0 * 256 + 255) = t.charAt (0 * 256 + 255) ∧
      (u.sendAddress 0xFF).ramCh ≠ t.ramCh :=
  ⟨ready_OneBank, by decide, _, _, rfl, rfl, ⟨by decide, by decide, by decide⟩, by decide, by decide, by decide⟩

/-- The status character is read back at another character number of the same RAM register. -/
theorem witness_ReadReturnsLastWrite_status :
    ∃ t, exec .wr3 ready = .next t ∧ (t.sendAddress 0xF0).OneBank 0 0xF0 ∧
      (0xF0#8).toNat / 16 = (0xFF#8).toNat / 16 ∧ (t.sendAddress 0xF0).platform = ready.platform ∧
      (t.sendAddress 0xF0).statusAt (0 * 64 + 255 / 16 * 4 + 3) = t.statusAt (0 * 64 + 255 / 16 * 4 + 3) :=
  ⟨_, rfl, ⟨by decide, by decide, by decide⟩, by decide, by decide, by decide⟩

theorem witness_JumpToSelfIsFixedPoint : (placed State.reset 0x009 [0x40, 0x09]).halted = true := by decide

theorem witness_InputsSeenOnlyByJcnAndRdr :
    (∀ c a, Instr.jcn 0b1110 0 = .jcn c a → c.getLsbD 0 = false) ∧ Instr.jcn 0b0001 0 ≠ .rdr := by
  refine ⟨fun c a h => ?_, by decide⟩
  cases h
  decide

end Sys2Proof.Tests
end

section
/-! PROOFS of the family 30_encoding.md (O5): the length of an instruction is told by `twoWords` of its first word (R102). -/

namespace Sys2Proof

/-- An instruction is encoded in as many words as its format has (R100, R104). -/
theorem encode_length (i : Instr) : (encode i).length = i.words := by
  cases i <;> rfl

theorem words_eq_one_or_two (i : Instr) : i.words = 1 ∨ i.words = 2 := by
  unfold Instr.words
  cases i.format <;> decide

theorem decodeDataAccess_words (opa : Nibble) : (decodeDataAccess opa).words = 1 := by
  revert opa
  decide

theorem decodeAccumulator_words (opa : Nibble) : ∀ i ∈ decodeAccumulator opa, i.words = 1 := by
  revert opa
  decide

/-- The decoder reads a two-word instruction exactly from the first words that `twoWords` names. -/
theorem decodeWords_words {w1 w2 : Byte} {i : Instr} (h : decodeWords w1 w2 = some i) :
    i.words = 2 ↔ twoWords w1 = true := by
  unfold decodeWords at h
  split at h <;> rename_i hopr
  case h_1 => -- `NOP`, from the word 00 only
    obtain ⟨-, ⟨⟩⟩ := Option.ite_none_right_eq_some.1 h
    simp [twoWords, hopr, Instr.words, Instr.format, Format.words]
  case h_3 | h_4 => -- `FIM` and `SRC`, `FIN` and `JIN`: told apart by `OPA[0]`
    cases hbit : pairBit (lower4 w1) <;> cases h <;>
      simp [twoWords, hopr, hbit, Instr.words, Instr.format, Format.words]
  case h_15 => -- the data access group
    cases h
    simp [twoWords, hopr, decodeDataAccess_words]
  case h_16 => -- the accumulator group
    simp [twoWords, *, decodeAccumulator_words _ i h]
  all_goals -- one instruction of each remaining `OPR`
    cases h
    simp [twoWords, hopr, Instr.words, Instr.format, Format.words]

/-- `twoWords` by the fields of the first word: `OPR` is its quotient by 16, `OPA[0]` its parity (R101, R102). -/
theorem twoWords_iff_fields (w1 : Byte) :
    twoWords w1 = true ↔ w1.toNat / 16 ∈ [1, 4, 5, 7] ∨ (w1.toNat / 16 = 2 ∧ w1.toNat % 2 = 0) := by
  revert w1
  decide

/-- `twoWords` by the two mask tests of R102. -/
theorem twoWords_iff_masks (w1 : Byte) :
    twoWords w1 = true ↔
      (w1 &&& 0xF0#8) ∈ [0x10#8, 0x40#8, 0x50#8, 0x70#8] ∨ (w1 &&& 0xF1#8) = 0x20#8 := by
  revert w1
  decide

/-- Settles O5: the length is `twoWords` of the first word, which both forms of R102 describe. -/
theorem lengthFromFirstWord : Obligations.LengthFromFirstWord := by
  intro w1 w2 i h
  have hlen := decodeWords_words h
  exact ⟨words_eq_one_or_two i, hlen.trans (twoWords_iff_fields w1), hlen.trans (twoWords_iff_masks w1),
    encode_length i⟩

end Sys2Proof
end

section
/-! PROOFS of the family 40_machine_1word.md (O14, O17 to O22): for each instruction its encoding, then the values it writes
and the frame, from the laws of Views.lean and Arithmetic.lean. -/

namespace Sys2Proof

/-- R110: `NOP` is decoded from the word 00 and from no other. -/
theorem decodeWords_eq_nop (w1 w2 : Byte) : decodeWords w1 w2 = some .nop ↔ w1 = 0x00#8 := by
  constructor
  · intro h
    unfold decodeWords at h
    split at h <;> rename_i hopr
    case h_1 => -- `OPR = 0`: the `OPA` is 0 too
      obtain ⟨hopa, -⟩ := Option.ite_none_right_eq_some.1 h
      rw [← append_upper4_lower4 w1, hopr, hopa]
      rfl
    case h_3 | h_4 => -- told apart by `OPA[0]`, neither is `NOP`
      cases hbit : pairBit (lower4 w1) <;> simp [hbit] at h
    case h_15 => -- the data access group
      have hne : ∀ opa, decodeDataAccess opa ≠ .nop := by decide
      exact absurd (Option.some.inj h) (hne _)
    case h_16 => -- the accumulator group
      have hne : ∀ opa, decodeAccumulator opa ≠ some .nop := by decide
      exact absurd h (hne _)
    all_goals cases h
  · rintro rfl
    rfl

theorem upper4_eq_ofNat (w : Byte) : upper4 w = BitVec.ofNat 4 (w.toNat / 16) := by
  rw [← upper4_toNat, BitVec.ofNat_toNat, BitVec.setWidth_eq]

theorem lower4_eq_ofNat (w : Byte) : lower4 w = BitVec.ofNat 4 (w.toNat % 16) := by
  rw [← lower4_toNat, BitVec.ofNat_toNat, BitVec.setWidth_eq]

end Sys2Proof

namespace Sys2Proof.Machine

/-- The chip of an in-page target is the page number of the next word's address (R87). -/
theorem chip_pageTarget (next : Addr) (a8 : Byte) :
    ((pageTarget next a8).extractLsb' 8 4).toNat = next.toNat / 256 := by
  have hn := next.isLt
  have ha := a8.isLt
  rw [BitVec.extractLsb'_toNat, pageTarget_toNat, Nat.shiftRight_eq_div_pow]
  omega

/-- A ROM read in the page of `A0 + n` answers when that page's chip is populated, whatever the low 8 bits (R9, R87). -/
theorem State.romRead_inPage (s : State) (n : Nat) (a8 : Byte)
    (h : (s.pcPlus n).toNat / 256 < s.platform.romChips) :
    s.romRead (s.inPage n a8) = .ok (s.romByte (s.inPage n a8)) := by
  have hchip : s.romChipPopulated ((s.inPage n a8).extractLsb' 8 4) = true := by
    rw [← s.pageTarget_eq, State.romChipPopulated, chip_pageTarget]
    exact decide_eq_true h
  rw [State.romRead, if_pos hchip]

/-- R132: the byte that `FIN` loads, from a populated chip. -/
theorem exec_fin (p : Pair) (s : State) (h : (s.pcPlus 1).toNat / 256 < s.platform.romChips) :
    exec (.fin p) s = .next (s.setPair p (s.romByte (s.inPage 1 (s.pair 0)))).advance1 := by
  simp only [exec, execFin, s.next1_eq, s.pageTarget_eq, s.romRead_inPage 1 _ h]

theorem State.reg_setPair_even (s : State) (p : Pair) (d : Byte) : (s.setPair p d).reg (evenReg p) = upper4 d := by
  rw [State.reg_setPair, if_pos rfl]

theorem State.reg_setPair_odd (s : State) (p : Pair) (d : Byte) : (s.setPair p d).reg (oddReg p) = lower4 d := by
  have hne : oddReg p ≠ evenReg p := by revert p; decide
  rw [State.reg_setPair, if_neg hne, if_pos rfl]

theorem State.sameButRegsPc_setPair (s : State) (p : Pair) (d : Byte) (a : Addr) :
    s.SameButRegsPc ((s.setPair p d).setPc a) fun r => r.toNat / 2 = p.toNat := by
  refine ⟨s.sameButPc_setPc a, fun r (hr : ¬ r.toNat / 2 = p.toNat) => ?_⟩
  have heven : r ≠ evenReg p := by rintro rfl; rw [evenReg_toNat] at hr; omega
  have hodd : r ≠ oddReg p := by rintro rfl; rw [oddReg_toNat] at hr; omega
  rw [State.reg_setPc, State.reg_setPair, if_neg heven, if_neg hodd]

/-- R122: the sum that a subtraction takes, with the complements of operand and carry written as differences. -/
theorem subWithBorrow_sum (a x : Nibble) (c : Bool) :
    a.toNat + (not4 x).toNat + (!c).toNat = a.toNat + (15 - x.toNat) + (1 - c.toNat) := by
  rw [not4_toNat]
  cases c <;> rfl

/-- Settles O14: the decoder's branches leave only the word 00; the rest is the frame of an advance. -/
theorem nopOnlyAdvances : Obligations.NopOnlyAdvances :=
  ⟨rfl, decodeWords_eq_nop, fun s => ⟨_, rfl, s.pc_advance1, s.sameButPc_advance1⟩⟩

/-- Settles O17: the byte is read before the pair is written, so pair 0 counts with its old value. -/
theorem finLoadsRomByte : Obligations.FinLoadsRomByte := by
  intro p s
  refine ⟨congrArg ([·]) (pairWord_eq_ofNat 0x3#4 p 0#1), rfl, rfl, fun h => ?_⟩
  refine ⟨_, exec_fin p s h, ?_, ?_, State.pc_advance1 _, s.sameButRegsPc_setPair p _ _⟩
  · rw [← evenReg_eq, ← upper4_eq_ofNat]
    exact s.reg_setPair_even p _
  · rw [← oddReg_eq, ← lower4_eq_ofNat]
    exact s.reg_setPair_odd p _

/-- Settles O18: the target is formed from the address of the next word. -/
theorem jinJumpsInPage : Obligations.JinJumpsInPage := by
  intro p s
  have hpc : pageTarget s.next1 (s.pair p) = s.inPage 1 (s.pair p) := by rw [s.next1_eq, s.pageTarget_eq]
  refine ⟨?_, _, rfl, (s.pc_setPc _).trans hpc, s.sameButPc_setPc _⟩
  rw [encode, pairWord_eq_ofNat, Nat.add_right_comm]
  rfl

/-- Settles O19, from the laws of a register write: addition of nibbles is modulo 16. -/
theorem incWraps : Obligations.IncWraps := by
  intro r s
  refine ⟨congrArg ([·]) (nibbles_eq_ofNat 0x6#4 r), _, rfl, ?_, State.pc_advance1 _, s.sameButRegsPc_setReg r _ _⟩
  rw [State.advance1, State.reg_setPc, State.reg_setReg, if_pos rfl, BitVec.toNat_add]
  rfl

/-- Settles O20, from the two laws of `add4`. -/
theorem addWithCarryIn : Obligations.AddWithCarryIn := by
  intro r s
  exact ⟨congrArg ([·]) (nibbles_eq_ofNat 0x8#4 r), _, rfl, add4_toNat _ _ _, add4_carry _ _ _,
    State.pc_advance1 _, s.sameButAccCyPc_setAccCy _⟩

/-- Settles O21: `add4` of the complements, and the borrow reading of its result and carry. -/
theorem subWithBorrowIn : Obligations.SubWithBorrowIn := by
  intro r s
  have hsum := subWithBorrow_sum s.acc (s.reg r) s.cy
  exact ⟨congrArg ([·]) (nibbles_eq_ofNat 0x9#4 r), _, rfl, hsum ▸ add4_toNat _ _ _, subWithBorrow_toInt _ _ _,
    hsum ▸ add4_carry _ _ _, subWithBorrow_carry _ _ _, State.pc_advance1 _, s.sameButAccCyPc_setAccCy _⟩

/-- Settles O22: `XCH` takes both old values before it writes either. -/
theorem loadsAndExchange : Obligations.LoadsAndExchange := by
  refine ⟨fun r s => ?ld, fun d s => ?ldm, fun r s => ?xch⟩
  case ld =>
    exact ⟨congrArg ([·]) (nibbles_eq_ofNat 0xA#4 r), _, rfl, rfl, State.pc_advance1 _, s.sameButAccPc_setAcc _⟩
  case ldm =>
    exact ⟨congrArg ([·]) (nibbles_eq_ofNat 0xD#4 d), _, rfl, rfl, State.pc_advance1 _, s.sameButAccPc_setAcc _⟩
  case xch =>
    refine ⟨congrArg ([·]) (nibbles_eq_ofNat 0xB#4 r), _, rfl, rfl, ?_, State.pc_advance1 _,
      s.sameButRegsPc_setReg r s.acc _⟩
    rw [State.advance1, State.reg_setPc, State.reg_setReg, if_pos rfl]

end Sys2Proof.Machine
end

section
/-! PROOFS of the family 41_machine_2word.md (O26, O27, O29): the words of an instruction that holds an address, the PC
after a branch, then for each instruction its encoding, the values it writes and the frame. -/

namespace Sys2Proof

/-- R106 (d): the words of an instruction that holds a 12-bit address, as numbers. -/
theorem addressWords_eq_ofNat (opr : Nibble) (a : Addr) :
    addressWords opr a = [BitVec.ofNat 8 (opr.toNat * 16 + a.toNat / 256), BitVec.ofNat 8 (a.toNat % 256)] := by
  have ha := a.isLt
  have hhigh : (a.extractLsb' 8 4).toNat = a.toNat / 256 := by
    rw [BitVec.extractLsb'_toNat, Nat.shiftRight_eq_div_pow]
    omega
  have hlow : a.extractLsb' 0 8 = BitVec.ofNat 8 (a.toNat % 256) := by
    apply BitVec.eq_of_toNat_eq
    simp [BitVec.extractLsb'_toNat]
  rw [addressWords, nibbles_eq_ofNat, hhigh, hlow]

/-- Modulo 16 only the successor of 15 is zero. -/
theorem nibble_succ_ne_zero_iff (v : Nibble) : (v + 1 != 0) = true ↔ v.toNat ≠ 15 := by
  revert v
  decide

end Sys2Proof

namespace Sys2Proof.Machine

/-- Where a two-word instruction with an in-page target goes on (R160, R164, R87). -/
theorem State.pc_branchOn (s : State) (taken : Bool) (a8 : Byte) :
    (s.branchOn taken a8).pc = if taken then s.inPage 2 a8 else s.pcPlus 2 := by
  rw [State.branchOn, State.pc_setPc, s.next2_eq, s.pageTarget_eq]

/-- Settles O26, from the laws of a pair write. -/
theorem fimLoadsPair : Obligations.FimLoadsPair := by
  intro p d8 s
  refine ⟨congrArg ([·, d8]) (pairWord_eq_ofNat 0x2#4 p 0#1), _, rfl, ?even, ?odd, State.pc_advance2 _,
    s.sameButRegsPc_setPair p d8 _⟩
  case even =>
    rw [← evenReg_eq, ← upper4_eq_ofNat]
    exact s.reg_setPair_even p d8
  case odd =>
    rw [← oddReg_eq, ← lower4_eq_ofNat]
    exact s.reg_setPair_odd p d8

/-- Settles O27: the PC is written whole, and nothing else is. -/
theorem junJumpsAnywhere : Obligations.JunJumpsAnywhere :=
  fun a s => ⟨addressWords_eq_ofNat 0x4#4 a, _, rfl, s.pc_setPc a, s.sameButPc_setPc a⟩

/-- Settles O29: the branch is decided by the incremented register, which is zero exactly when the old one was 15. -/
theorem iszJumpsUnlessZero : Obligations.IszJumpsUnlessZero := by
  intro r a8 s
  refine ⟨congrArg ([·, a8]) (nibbles_eq_ofNat 0x7#4 r), _, rfl, ?reg, ?pc, s.sameButRegsPc_setReg r _ _⟩
  case reg =>
    rw [State.branchOn, State.reg_setPc, State.reg_setReg, if_pos rfl, BitVec.toNat_add]
    rfl
  case pc =>
    rw [State.pc_branchOn]
    simp only [nibble_succ_ne_zero_iff, ne_eq, ite_not]
    rfl

end Sys2Proof.Machine
end

section
/-! PROOFS of the family 43_accumulator.md (O39 to O43, O45, O46): what each function of the accumulator group gives as
numbers where Arithmetic.lean does not say it yet, then for each instruction its encoding, the values it writes and the
frame. -/

namespace Sys2Proof.Machine

/-! ### The ring of `CY` and `ACC` -/

/-- The ring `{CY, ACC}` that `RAL` and `RAR` rotate, in the order of the pairs of Flags.lean. -/
def State.ring (s : State) : Nibble × Bool := (s.acc, s.cy)

theorem State.ring_eq_iff (s t : State) : t.ring = s.ring ↔ t.acc = s.acc ∧ t.cy = s.cy := Prod.mk_inj

theorem ring_of_exec_ral {s t : State} (h : exec .ral s = .next t) : t.ring = rotateLeft.uncurry s.ring := by
  cases h
  rfl

theorem ring_of_exec_rar {s t : State} (h : exec .rar s = .next t) : t.ring = rotateRight.uncurry s.ring := by
  cases h
  rfl

theorem rotateRight_leftInverse_rotateLeft : Function.LeftInverse rotateRight.uncurry rotateLeft.uncurry := by
  rintro ⟨a, c⟩
  revert a c
  decide

theorem rotateLeft_leftInverse_rotateRight : Function.LeftInverse rotateLeft.uncurry rotateRight.uncurry := by
  rintro ⟨a, c⟩
  revert a c
  decide

/-- The ring has five bits. -/
theorem rotateLeft_iterate_five (p : Nibble × Bool) : rotateLeft.uncurry^[5] p = p := by
  obtain ⟨a, c⟩ := p
  revert a c
  decide

/-- Settles O41: the rotations as numbers, then as mutually inverse maps of the five bits of the ring. -/
theorem rotatesThroughCarry : Obligations.RotatesThroughCarry := by
  refine ⟨rfl, rfl, fun s => ⟨?ral, ?rar⟩, fun s t u hl hr => ?left_right, fun s t u hr hl => ?right_left,
    fun s t1 t2 t3 t4 t5 h1 h2 h3 h4 h5 => ?five⟩
  case ral =>
    exact ⟨_, rfl, rotateLeft_toNat s.acc s.cy, rotateLeft_carry _ s.cy, State.pc_advance1 _,
      s.sameButAccCyPc_setAccCy _⟩
  case rar =>
    exact ⟨_, rfl, rotateRight_toNat s.acc s.cy, rotateRight_carry _ s.cy, State.pc_advance1 _,
      s.sameButAccCyPc_setAccCy _⟩
  case left_right =>
    rw [← State.ring_eq_iff, ring_of_exec_rar hr, ring_of_exec_ral hl, rotateRight_leftInverse_rotateLeft]
  case right_left =>
    rw [← State.ring_eq_iff, ring_of_exec_ral hl, ring_of_exec_rar hr, rotateLeft_leftInverse_rotateRight]
  case five =>
    rw [← State.ring_eq_iff, ring_of_exec_ral h5, ring_of_exec_ral h4, ring_of_exec_ral h3, ring_of_exec_ral h2,
      ring_of_exec_ral h1]
    exact rotateLeft_iterate_five s.ring

/-! ### The other functions of the group, as numbers -/

/-- R222: modulo 16 only 15 has a carry when 1 is added. -/
theorem increment_carry (a : Nibble) : (increment a).2 = true ↔ a.toNat = 15 := by
  have ha := a.isLt
  have h1 : (1 : Nibble).toNat = 1 := rfl
  rw [increment, add4_carry, h1, Bool.toNat_false]
  omega

/-- R228: adding 15 carries out of everything but 0, which is when `DAC` borrows. -/
theorem decrement_carry (a : Nibble) : (decrement a).2 = true ↔ a.toNat ≠ 0 := by
  have h15 : (15 : Nibble).toNat = 15 := rfl
  rw [decrement, add4_carry, h15, Bool.toNat_false]
  omega

/-- R223: the complement of the carry as a difference. -/
theorem toNat_not_carry (c : Bool) : (!c).toNat = 1 - c.toNat := by
  cases c <;> rfl

theorem carryDigit_toNat (c : Bool) : (carryDigit c).toNat = c.toNat := by
  cases c <;> rfl

theorem carrySubtractDigit_toNat (c : Bool) : (carrySubtractDigit c).toNat = 9 + c.toNat := by
  cases c <;> rfl

/-- R232: the code of every nibble, as the list of the rule gives it. -/
theorem keyboardCode_toNat (a : Nibble) : some (keyboardCode a).toNat =
    [0, 1, 2, 15, 3, 15, 15, 15, 4, 15, 15, 15, 15, 15, 15, 15][a.toNat]? := by
  revert a
  decide

/-- R233: the lower 3 bits of a nibble as a number. -/
theorem lower3_eq_ofNat (a : Nibble) : a.extractLsb' 0 3 = BitVec.ofNat 3 (a.toNat % 8) := by
  apply BitVec.eq_of_toNat_eq
  simp [BitVec.extractLsb'_toNat]

/-! ### The instructions -/

/-- Settles O39: `CMA` alone touches only `ACC`; the others write `CY` and keep `ACC` or clear both. -/
theorem clearSetComplement : Obligations.ClearSetComplement := by
  refine ⟨rfl, rfl, rfl, rfl, rfl, fun s => ⟨?clb, ?clc, ?cmc, ?cma, ?stc⟩⟩
  case clb => exact ⟨_, rfl, rfl, rfl, State.pc_advance1 _, s.sameButAccCyPc_setAccCy _⟩
  case clc => exact ⟨_, rfl, rfl, rfl, State.pc_advance1 _, s.sameButAccCyPc_setCy _⟩
  case cmc => exact ⟨_, rfl, rfl, toNat_not_carry _, State.pc_advance1 _, s.sameButAccCyPc_setCy _⟩
  case cma => exact ⟨_, rfl, not4_toNat _, State.pc_advance1 _, s.sameButAccPc_setAcc _⟩
  case stc => exact ⟨_, rfl, rfl, rfl, State.pc_advance1 _, s.sameButAccCyPc_setCy _⟩

/-- Settles O40: both are `add4` without a carry in, so the old carry plays no part. -/
theorem incrementDecrementAccumulator : Obligations.IncrementDecrementAccumulator := by
  refine ⟨rfl, rfl, fun s => ⟨?iac, ?dac⟩⟩
  case iac =>
    exact ⟨_, rfl, add4_toNat _ 1 false, increment_carry _, State.pc_advance1 _, s.sameButAccCyPc_setAccCy _⟩
  case dac =>
    exact ⟨_, rfl, add4_toNat _ 15 false, decrement_carry _, State.pc_advance1 _, s.sameButAccCyPc_setAccCy _⟩

/-- Settles O42: the digit is made from the old carry, which is cleared with it. -/
theorem carryBecomesDigit : Obligations.CarryBecomesDigit := by
  refine ⟨rfl, rfl, fun s => ⟨?tcc, ?tcs⟩⟩
  case tcc => exact ⟨_, rfl, carryDigit_toNat _, rfl, State.pc_advance1 _, s.sameButAccCyPc_setAccCy _⟩
  case tcs => exact ⟨_, rfl, carrySubtractDigit_toNat _, rfl, State.pc_advance1 _, s.sameButAccCyPc_setAccCy _⟩

/-- Settles O43, from the two laws of `decimalAdjust`. -/
theorem daaAdjusts : Obligations.DaaAdjusts :=
  ⟨rfl, fun s => ⟨_, rfl, decimalAdjust_toNat _ _, decimalAdjust_carry _ _, State.pc_advance1 _,
    s.sameButAccCyPc_setAccCy _⟩⟩

/-- Settles O45: `keyboardCode` agrees with the list of R232 at every nibble. -/
theorem kbpEncodesOneBit : Obligations.KbpEncodesOneBit :=
  ⟨rfl, fun s => ⟨_, rfl, keyboardCode_toNat _, State.pc_advance1 _, s.sameButAccPc_setAcc _⟩⟩

/-- Settles O46: the next state's banks are those of the new `DCL`; with the old `DCL` put back only the PC differs. -/
theorem dclDesignatesBank : Obligations.DclDesignatesBank := by
  refine ⟨rfl, fun s => ⟨_, rfl, ?dcl, ?banks, fun b => rfl, rfl, State.pc_advance1 _, s.sameButPc_advance1⟩⟩
  case dcl => exact BitVec.extractLsb'_toNat 0 3 s.acc
  case banks => exact congrArg (banksOf s.platform.bankMode) (lower3_eq_ofNat s.acc)

end Sys2Proof.Machine
end

section
/-! PROOFS of the family 70_reset_and_hazards.md (O10): the `DCL` that a reset leaves, and the line and the bank that this
value selects. -/

namespace Sys2Proof.Machine

/-- R281: the reset event clears `DCL` whatever the platform. -/
@[simp] theorem State.afterReset_dcl (s : State) : s.afterReset.dcl = 0b000#3 := rfl

@[simp] theorem State.bootOn_dcl (p : Platform) : (State.bootOn p).dcl = 0b000#3 := State.afterReset_dcl _

/-- R70: `DCL = 000` asserts `CM-RAM0` alone. -/
@[simp] theorem commandLines_zero : commandLines 0b000#3 = [0] := if_pos rfl

/-- R70: in `direct` mode the banks are numbered by the lines, so line 0 alone is bank 0 alone. -/
@[simp] theorem banksOf_direct_zero : banksOf .direct 0b000#3 = [0] :=
  congrArg (List.map (BitVec.setWidth 3)) commandLines_zero

/-- Settles O10: both resets leave `DCL = 000`, and in `direct` mode that value selects line 0 and bank 0 alone. -/
theorem resetSelectsBankZero : Obligations.ResetSelectsBankZero := by
  refine ⟨rfl, State.bootOn_dcl, fun s hmode hdcl => ⟨?lines, ?banks⟩⟩
  case lines => rw [hdcl, commandLines_zero]
  case banks => rw [State.banks, hmode, hdcl, banksOf_direct_zero]

end Sys2Proof.Machine
end

section
/-! PROOFS of the encoding statements (O1 to O3, O6): the decoder by the fields of the first word, that `encode` and
`decode` undo each other, and which words are no instruction (spec/30_encoding.md sections 3 to 5 and 7). -/

namespace Sys2Proof

/-- A first word is its two fields (R101). -/
theorem exists_eq_append (w : Byte) : ∃ opr opa : Nibble, w = opr ++ opa :=
  ⟨upper4 w, lower4 w, (append_upper4_lower4 w).symm⟩

theorem decode_of_one {w1 : Byte} {i : Instr} (rest : List Byte) (hw : twoWords w1 = false)
    (h : decodeWords w1 0 = some i) : decode (w1 :: rest) = .ok (i, rest) := by
  rw [decode_one w1 rest hw, decodeAs, h]

theorem decode_of_two {w1 w2 : Byte} {i : Instr} (rest : List Byte) (hw : twoWords w1 = true)
    (h : decodeWords w1 w2 = some i) : decode (w1 :: w2 :: rest) = .ok (i, rest) := by
  rw [decode_two w1 w2 rest hw, decodeAs, h]

/-- Settles O1: by format. The fields of a first word put together from an `OPR` and an operand are these again. -/
theorem decodeOfEncode : Obligations.DecodeOfEncode := by
  intro i rest
  cases i
  case jcn | isz => -- `COND_A8`, `REG_A8`
    exact decode_of_two rest (by simp [twoWords]) (by simp [decodeWords])
  case jun | jms => -- `A12`: the address is cut in two
    exact decode_of_two rest (by simp [twoWords]) (by simp [decodeWords, address_parts])
  case fim p d8 => -- `PAIR_D8`: the bit after the pair number is 0
    exact decode_of_two rest (by simp [twoWords, pairWord, pairBit_append_zero])
      (by simp [decodeWords, pairWord, pairBit_append_zero, pairField_append])
  case src | fin | jin => -- `PAIR`
    exact decode_of_one rest (by simp [twoWords, pairWord, pairBit_append_one])
      (by simp [decodeWords, pairWord, pairBit_append_zero, pairBit_append_one, pairField_append])
  case inc | add | sub | ld | xch | bbl | ldm => -- `REG`, `IMM4`
    exact decode_of_one rest (by simp [twoWords]) (by simp [decodeWords])
  all_goals exact decode_of_one rest rfl rfl -- `IMPL`: a word written out

/-- The first word of an instruction that names a pair, from its `OPA` (R105). -/
theorem pairWord_pairField (opr : Nibble) {opa : Nibble} {b : Bool} (h : pairBit opa = b) :
    pairWord opr (pairField opa) (BitVec.ofBool b) = opr ++ opa := by
  subst h
  have hopa : pairField opa ++ BitVec.ofBool (pairBit opa) = opa := by revert opa; decide
  rw [pairWord, hopa]

theorem addressWords_append (opr opa : Nibble) (w2 : Byte) :
    addressWords opr (opa ++ w2 : Addr) = [opr ++ opa, w2] := by
  have hhigh : (opa ++ w2 : Addr).extractLsb' 8 4 = opa := BitVec.extractLsb'_append_eq_left
  have hlow : (opa ++ w2 : Addr).extractLsb' 0 8 = w2 := BitVec.extractLsb'_append_eq_right
  rw [addressWords, hhigh, hlow]

theorem encode_decodeDataAccess (opa : Nibble) : encode (decodeDataAccess opa) = [0xE#4 ++ opa] := by
  revert opa
  decide

theorem encode_decodeAccumulator (opa : Nibble) : ∀ i ∈ decodeAccumulator opa, encode i = [0xF#4 ++ opa] := by
  revert opa
  decide

/-- The words of a decoded instruction are the words it was read from, the second only where there is one. -/
theorem encode_of_decodeWords {w1 w2 : Byte} {i : Instr} (h : decodeWords w1 w2 = some i) :
    encode i = w1 :: (if twoWords w1 then [w2] else []) := by
  obtain ⟨opr, opa, rfl⟩ := exists_eq_append w1
  simp only [decodeWords, twoWords, upper4_append, lower4_append] at h ⊢
  split at h
  case h_1 => -- `NOP`
    obtain ⟨rfl, ⟨⟩⟩ := Option.ite_none_right_eq_some.1 h
    rfl
  case h_3 | h_4 => -- `FIM` and `SRC`, `FIN` and `JIN`
    cases hbit : pairBit opa <;> simp only [hbit] at h <;> cases h <;> simpa [encode] using pairWord_pairField _ hbit
  case h_5 | h_6 => -- `JUN`, `JMS`
    cases h
    simp [encode, addressWords_append]
  case h_15 => -- the data access group
    cases h
    exact encode_decodeDataAccess opa
  case h_16 => -- the accumulator group
    have hopr : opr = 0xF#4 := by revert opr; decide
    subst hopr
    exact encode_decodeAccumulator opa i h
  all_goals cases h; rfl


/-- Settles O2: a string that decodes begins with the one or two words that `encode` gives back. -/
theorem encodeOfDecode : Obligations.EncodeOfDecode := by
  intro ws rest i h
  obtain ⟨w1, rfl, hw, hd⟩ | ⟨w1, w2, rfl, hw, hd⟩ := decode_eq_ok h
  all_goals rw [encode_of_decodeWords hd, hw]; rfl

/-- The family of PerInstr.lean as one statement: the encoding of every instruction has its row of the opcode table. -/
theorem Laws.Encoded.statement (i : Instr) : Statement i := by
  cases i
  exacts [nop, jcn _ _, fim _ _, src _, fin _, jin _, jun _, jms _, inc _, isz _ _, add _, sub _, ld _, xch _, bbl _,
    ldm _, wrm, wmp, wrr, wpm, wr0, wr1, wr2, wr3, sbm, rdm, rdr, adm, rd0, rd1, rd2, rd3, clb, clc, iac, cmc, cma, ral,
    rar, tcc, dac, tcs, stc, daa, kbp, dcl]

/-- Whether a first word is reserved does not depend on the word after it. -/
theorem decodeWords_isNone (w1 w2 : Byte) : (decodeWords w1 w2).isNone = (decodeWords w1 0).isNone := by
  unfold decodeWords
  split <;> rfl

/-- The list of R110: the words that no instruction begins with. -/
theorem decodeWords_eq_none_iff (w1 w2 : Byte) :
    decodeWords w1 w2 = none ↔ (1 ≤ w1.toNat ∧ w1.toNat ≤ 15) ∨ 254 ≤ w1.toNat := by
  rw [← Option.isNone_iff_eq_none, decodeWords_isNone]
  revert w1
  decide

/-- A reserved word is of no row of the opcode table (R108, R110). -/
theorem rowsOf_reserved (w1 : Byte) (h : (1 ≤ w1.toNat ∧ w1.toNat ≤ 15) ∨ 254 ≤ w1.toNat) : rowsOf w1 = [] := by
  revert w1
  decide

theorem twoWords_reserved (w1 : Byte) (h : (1 ≤ w1.toNat ∧ w1.toNat ≤ 15) ∨ 254 ≤ w1.toNat) : twoWords w1 = false := by
  revert w1
  decide

/-- Settles O3: the row of a decoded instruction is the one its encoding has, and a reserved word has none. -/
theorem decoderAgreesWithOpcodeTable : Obligations.DecoderAgreesWithOpcodeTable := by
  intro w1 w2
  cases hd : decodeWords w1 w2 with
  | none => exact rowsOf_reserved w1 ((decodeWords_eq_none_iff w1 w2).1 hd)
  | some i =>
    obtain ⟨⟨w, rest, row, hwords, hrow, hname, hlen⟩, -, -⟩ := Laws.Encoded.statement i
    obtain ⟨rfl, -⟩ := List.cons.inj (hwords.symm.trans (encode_of_decodeWords hd))
    exact ⟨row, hrow, hname, hlen⟩

/-- Settles O6: each word is written out, so the decoder computes. -/
theorem writtenOutWordsDecode : Obligations.WrittenOutWordsDecode :=
  ⟨rfl, rfl, rfl, rfl, rfl, rfl, rfl, rfl, rfl, rfl, rfl, rfl⟩

end Sys2Proof
end

section
/-! PROOFS of the invariant (O53, O54): what a reset establishes, which fields the invariant looks at, and that every
effect of an instruction keeps it (spec/10_state.md sections 1, 2 and 4, spec/20_memory.md sections 1 and 2). -/

namespace Sys2Proof.Machine

/-! ### After reset -/

theorem Memory.wf_nil : Memory.wf [] = true := rfl

theorem Chars.wf_nil (size : Nat) : Chars.wf size [] = true := rfl

/-- After a reset no latch of a RAM bank is written (R284, D6). -/
theorem State.ramAddrSent_afterReset (s : State) (b : Bank) : s.afterReset.ramAddrSent b = false := by
  simp [State.ramAddrSent, State.afterReset]

/-- After a reset the PC is level 0 and holds a specified address; the other levels do when the reset clears them
(R282, R283). -/
theorem State.levelKnown_afterReset (s : State) (l : Level) :
    s.afterReset.levelKnown l = (decide (l = 0) || s.platform.resetClearsAll) := by
  simp only [State.levelKnown, State.afterReset, Vector.getElem_ofFn, BitVec.toNat_eq]
  rfl

/-- A reset establishes all of the invariant but what the host answers for: platform and program text. -/
theorem State.inv_afterReset {s : State} (hp : s.platform.legal = true) (hr : Memory.wf s.rom = true) :
    s.afterReset.Inv where
  platformLegal := hp
  romCanonical := hr
  charsCanonical := Chars.wf_nil _
  statusCanonical := Chars.wf_nil _
  charsPopulated := by simp [State.afterReset]
  statusPopulated := by simp [State.afterReset]
  pcKnown := s.levelKnown_afterReset 0
  ramLatchWithRom b hb := by rw [s.ramAddrSent_afterReset] at hb; cases hb
  ramLatchInBank b hb := by rw [s.ramAddrSent_afterReset] at hb; cases hb

theorem State.inv_reset : State.reset.Inv where
  platformLegal := by decide
  romCanonical := State.reset_rom_wf
  charsCanonical := State.reset_ramCh_wf
  statusCanonical := State.reset_ramSt_wf
  charsPopulated := by simp [State.reset]
  statusPopulated := by simp [State.reset]
  pcKnown := by decide
  ramLatchWithRom := by decide
  ramLatchInBank := by decide

/-- Settles O53: the reference state, and the reset event on a platform without program text. -/
theorem resetMeetsInvariant : Obligations.ResetMeetsInvariant :=
  ⟨State.inv_reset, fun _ hp => State.inv_afterReset hp Memory.wf_nil⟩

/-! ### After an instruction -/

/-- `SRC` writes latches of selected banks only, and `ROMSEL` with them (R69, R70). -/
theorem State.Inv.src {s t : State} {p : Pair} (hs : s.Inv) (h : exec (.src p) s = .next t) : t.Inv := by
  obtain ⟨sel, sent, hsend, hlatch⟩ := s.sendAddress_eq (s.pair p)
  rw [exec, execSrc, hsend] at h
  cases h
  refine { hs with ramLatchWithRom := fun _ _ => rfl, ramLatchInBank := fun b hb => ?_ }
  by_cases hbank : b ∈ s.banks
  · exact s.banks_lt b hbank
  · exact hs.ramLatchInBank b (((hlatch b).2.trans (if_neg hbank)).symm.trans hb)

/-- `WRM` writes characters of populated chips in existing banks only (R9, R45). -/
theorem State.Inv.wrm {s t : State} (hs : s.Inv) (h : exec .wrm s = .next t) : t.Inv := by
  obtain ⟨-, rfl⟩ := State.storeRam_next h
  obtain ⟨cs, hfold, -⟩ := State.foldl_writeChar s.acc s.ramTargets s
  obtain ⟨hwf, hpop⟩ := State.foldl_writeChar_wf s.acc s.ramTargets s s.ramTargets_bank_lt hs.charsCanonical
    hs.charsPopulated
  rw [hfold] at hwf hpop ⊢
  exact { hs with charsCanonical := hwf, charsPopulated := hpop }

/-- `WR0` to `WR3` write status characters of populated chips in existing banks only (R9, R46). -/
theorem State.Inv.storeStatus {s t : State} {n : BitVec 2} (hs : s.Inv)
    (h : s.storeRam (State.writeStatus n s.acc) = .next t) : t.Inv := by
  obtain ⟨-, rfl⟩ := State.storeRam_next h
  obtain ⟨cs, hfold, -⟩ := State.foldl_writeStatus n s.acc s.ramTargets s
  obtain ⟨hwf, hpop⟩ := State.foldl_writeStatus_wf n s.acc s.ramTargets s s.ramTargets_bank_lt hs.statusCanonical
    hs.statusPopulated
  rw [hfold] at hwf hpop ⊢
  exact { hs with statusCanonical := hwf, statusPopulated := hpop }

/-- A return makes a level the PC only when it holds a specified address (R139, D5). -/
theorem State.pcKnown_of_returnFromCall {s t : State} (h : s.returnFromCall = .ok t) : t.levelKnown t.sp = true := by
  obtain ⟨hknown, u, hu, hsp, -, -, hlevels, -⟩ | ⟨-, herr⟩ := s.returnFromCall_cases
  · obtain rfl : u = t := Except.ok.inj (hu.symm.trans h)
    have hne : s.sp ≠ s.sp - 1 := by generalize s.sp = l; revert l; decide
    rw [hlevels, hsp, hknown, decide_eq_false hne]
    rfl
  · cases herr.symm.trans h

/-- Every instruction keeps the invariant: `SRC` and the stores of characters by the laws above, `JMS` and `BBL` by the
levels they make the PC, and the others by touching nothing the invariant looks at. -/
theorem exec_keeps_inv {i : Instr} {s t : State} (hs : s.Inv) (h : exec i s = .next t) : t.Inv := by
  cases exec_effect h with
  | latches => exact hs.src h
  | charStore => exact hs.wrm h
  | statusStore hi =>
    simp only [List.mem_cons, List.not_mem_nil, or_false] at hi
    obtain rfl | rfl | rfl | rfl := hi <;> exact hs.storeStatus h
  | call => exact { hs with pcKnown := by simp [State.levelKnown_call] }
  | ret hret =>
    have hpc := State.pcKnown_of_returnFromCall hret
    obtain ⟨_, _, _, _, rfl⟩ := State.returnFromCall_ok hret
    exact { hs with pcKnown := hpc }
  | _ => exact { hs with }

/-- Settles O54: a step is the reset event, which establishes the invariant anew, or an instruction, which keeps it. -/
theorem everyStepKeepsInvariant : Obligations.EveryStepKeepsInvariant := by
  intro s t hs h
  obtain ⟨-, rfl⟩ | ⟨-, i, -, hexec⟩ := step_next h
  · exact State.inv_afterReset hs.platformLegal hs.romCanonical
  · exact exec_keeps_inv hs hexec

end Sys2Proof.Machine
end

section
/-! PROOFS of the statements about the step and the reset event (O4, O7 to O9, O11, O51, O58): what a fetch reads or
refuses, and what a step does with it (spec/30_encoding.md section 7, spec/70_reset_and_hazards.md section 1). -/

namespace Sys2Proof.Machine

/-! ### Reading ROM -/

/-- The chip of a program address is its page number (R61). -/
theorem chip_toNat (a : Addr) : (a.extractLsb' 8 4).toNat = a.toNat / 256 := by
  have ha := a.isLt
  rw [BitVec.extractLsb'_toNat, Nat.shiftRight_eq_div_pow]
  omega

theorem State.romChipPopulated_iff (s : State) (a : Addr) :
    s.romChipPopulated (a.extractLsb' 8 4) = true ↔ a.toNat / 256 < s.platform.romChips := by
  rw [State.romChipPopulated, decide_eq_true_iff, chip_toNat]

theorem State.romRead_of_populated {s : State} {a : Addr} (h : s.romChipPopulated (a.extractLsb' 8 4) = true) :
    s.romRead a = .ok (s.romByte a) := if_pos h

theorem State.romRead_of_missing {s : State} {a : Addr} (h : s.platform.romChips ≤ a.toNat / 256) :
    s.romRead a = .error (.romNotPopulated a) := by
  refine if_neg fun hpop => ?_
  have := (s.romChipPopulated_iff a).1 hpop
  omega

/-! ### The fetch -/

/-- A one-word instruction is fetched with its word alone. -/
theorem State.fetch_one {s : State} (h1 : s.romChipPopulated (s.pc.extractLsb' 8 4) = true)
    (hw : twoWords (s.romByte s.pc) = false) : s.fetch = .ok (s.romByte s.pc, 0) := by
  simp only [State.fetch, State.romRead_of_populated h1, hw, Bool.false_eq_true, if_false]

theorem State.fetch_two {s : State} (h1 : s.romChipPopulated (s.pc.extractLsb' 8 4) = true)
    (hw : twoWords (s.romByte s.pc) = true) (h2 : s.romChipPopulated ((inc12 s.pc).extractLsb' 8 4) = true) :
    s.fetch = .ok (s.romByte s.pc, s.romByte (inc12 s.pc)) := by
  simp only [State.fetch, State.romRead_of_populated h1, State.romRead_of_populated h2, hw, if_true]

/-- A fetch at a chip the platform lacks is refused (D9). -/
theorem State.fetch_missing {s : State} (h : s.platform.romChips ≤ s.pc.toNat / 256) :
    s.fetch = .error (.romNotPopulated s.pc) := by
  simp only [State.fetch, State.romRead_of_missing h]

/-- The second word is fetched, and refused, only when the first begins a two-word instruction (R102, D9). -/
theorem State.fetch_missing_second {s : State} (h1 : s.romChipPopulated (s.pc.extractLsb' 8 4) = true)
    (hw : twoWords (s.romByte s.pc) = true) (h2 : s.platform.romChips ≤ (inc12 s.pc).toNat / 256) :
    s.fetch = .error (.romNotPopulated (inc12 s.pc)) := by
  simp only [State.fetch, State.romRead_of_populated h1, State.romRead_of_missing h2, hw, if_true]

/-! ### The step -/

theorem step_of_fetchInstr {s : State} {i : Instr} (hr : s.resetIn = false) (h : s.fetchInstr = .ok i) :
    step s = exec i s := by
  simp only [step, hr, h, Bool.false_eq_true, if_false]

theorem step_of_fetch {s : State} {w1 w2 : Byte} {i : Instr} (hr : s.resetIn = false) (h : s.fetch = .ok (w1, w2))
    (hd : decodeWords w1 w2 = some i) : step s = exec i s :=
  step_of_fetchInstr hr (by simp only [State.fetchInstr, h, hd])

theorem step_of_fetch_reserved {s : State} {w1 w2 : Byte} (hr : s.resetIn = false) (h : s.fetch = .ok (w1, w2))
    (hd : decodeWords w1 w2 = none) : step s = .refused (.reservedWord w1) := by
  simp only [step, State.fetchInstr, hr, h, hd, Bool.false_eq_true, if_false]

theorem step_of_fetch_refused {s : State} {r : Refusal} (hr : s.resetIn = false) (h : s.fetch = .error r) :
    step s = .refused r := by
  simp only [step, State.fetchInstr, hr, h, Bool.false_eq_true, if_false]

/-- Settles O4: a reserved word has one word, so the fetch reads it alone and nothing decodes it. -/
theorem reservedWordsRefused : Obligations.ReservedWordsRefused := by
  refine ⟨decodeWords_eq_none_iff, fun s hr hpop hw => ?_⟩
  exact step_of_fetch_reserved hr (State.fetch_one hpop (twoWords_reserved _ hw)) ((decodeWords_eq_none_iff _ 0).2 hw)

/-- Settles O7: the fetch reads as many words as the decoder did. -/
theorem stepRunsDecodedInstruction : Obligations.StepRunsDecodedInstruction := by
  intro s i rest hr h1 h2 hd
  obtain ⟨-, -, hwf⟩ := Laws.Encoded.statement i
  refine ⟨hwf, ?_⟩
  obtain ⟨w1, hws, hw, hi⟩ | ⟨w1, w2, hws, hw, hi⟩ := decode_eq_ok hd
  · obtain ⟨rfl, -⟩ := List.cons.inj hws
    exact step_of_fetch hr (State.fetch_one h1 hw) hi
  · obtain ⟨rfl, htl⟩ := List.cons.inj hws
    obtain ⟨rfl, -⟩ := List.cons.inj htl
    exact step_of_fetch hr (State.fetch_two h1 hw (h2 ((decodeWords_words hi).2 hw))) hi

/-- `FIN` from a chip the platform lacks is refused for its data address (R132, D9). -/
theorem exec_fin_missing {s : State} (p : Pair) (h : s.platform.romChips ≤ (s.pcPlus 1).toNat / 256) :
    exec (.fin p) s = .refused (.romNotPopulated (s.inPage 1 (s.pair 0))) := by
  have hdata : s.platform.romChips ≤ (s.inPage 1 (s.pair 0)).toNat / 256 := by
    rwa [← s.pageTarget_eq, ← chip_toNat, chip_pageTarget]
  simp only [exec, execFin, s.next1_eq, s.pageTarget_eq, State.romRead_of_missing hdata]

/-- Settles O8: the two refusals of the fetch, and that of `FIN`, whose data address is in the page of the next word. -/
theorem missingRomRefused : Obligations.MissingRomRefused := by
  refine ⟨fun s hr h => step_of_fetch_refused hr (State.fetch_missing h), fun s hr h1 h2 hw => ?_,
    fun s p h => exec_fin_missing p h⟩
  rw [← s.next1_eq] at h2 ⊢
  exact step_of_fetch_refused hr (State.fetch_missing_second ((s.romChipPopulated_iff _).2 h1) hw h2)

theorem State.setPc_pc (s : State) : s.setPc s.pc = s := by
  simp [State.setPc, State.pc, State.level]

/-- Settles O58: the step executes the `JUN`, which writes the PC with the value it has. -/
theorem jumpToSelfIsFixedPoint : Obligations.JumpToSelfIsFixedPoint := by
  intro s h
  obtain ⟨hr, hi⟩ : s.resetIn = false ∧ s.fetchInstr = .ok (.jun s.pc) := by simpa [State.halted] using h
  rw [step_of_fetchInstr hr hi]
  exact congrArg Host.Outcome.next s.setPc_pc

/-- Settles O51: neither the reset event nor an instruction writes the fields that hold them. -/
theorem stepsKeepProgramAndPlatform : Obligations.StepsKeepProgramAndPlatform := by
  intro s t h
  obtain ⟨hrom, hplatform⟩ : t.rom = s.rom ∧ t.platform = s.platform := by
    obtain ⟨-, rfl⟩ | ⟨-, i, -, hexec⟩ := step_next h
    · exact ⟨rfl, rfl⟩
    · obtain ⟨hrom, hplatform, -⟩ := exec_keeps_rom hexec
      exact ⟨hrom, hplatform⟩
  exact ⟨fun a => by rw [State.romByte, State.romByte, hrom], hrom, hplatform⟩

/-! ### The values after a reset -/

theorem step_of_reset {s : State} (h : s.resetIn = true) : step s = .next s.afterReset := if_pos h

@[simp] theorem State.romPort_afterReset (s : State) (k : Nibble) : s.afterReset.romPort k = 0 := by
  simp [State.romPort, State.afterReset]

@[simp] theorem State.ramPort_afterReset (s : State) (b : Bank) (c : BitVec 2) : s.afterReset.ramPort b c = 0 := by
  simp [State.ramPort, State.afterReset]

/-- R282: the PC after a reset is `0x000`, whether or not the reset clears the other levels. -/
theorem State.pc_afterReset (s : State) : s.afterReset.pc = 0 := by
  unfold State.pc State.level
  cases h : s.platform.resetClearsAll <;> simp [State.afterReset, State.stkAfterReset, h]

theorem State.reg_afterReset_of_clearing {s : State} (h : s.platform.resetClearsAll = true) (r : Reg) :
    s.afterReset.reg r = 0 := by
  simp [State.reg, State.afterReset, State.regsAfterReset, h]

theorem State.level_afterReset_of_clearing {s : State} (h : s.platform.resetClearsAll = true) (l : Level) :
    s.afterReset.level l = 0 := by
  simp [State.level, State.afterReset, State.stkAfterReset, h]

/-- Settles O9: registers and levels by whether the reset clears them, everything else whatever the platform. -/
theorem resetEventReplacesState : Obligations.ResetEventReplacesState := by
  intro s h
  refine ⟨s.afterReset, step_of_reset h, rfl, rfl, rfl, rfl, s.pc_afterReset, s.levelKnown_afterReset 0, rfl,
    s.ramAddrSent_afterReset, s.romPort_afterReset, s.ramPort_afterReset, rfl, rfl, rfl, rfl, rfl, rfl, rfl,
    fun hclear => ?clearing, fun hkeep l hl => ?keeping⟩
  case clearing =>
    exact ⟨State.reg_afterReset_of_clearing hclear, fun l => ⟨State.level_afterReset_of_clearing hclear l,
      by rw [s.levelKnown_afterReset, hclear, Bool.or_true]⟩⟩
  case keeping => rw [s.levelKnown_afterReset, hkeep, decide_eq_false hl]; rfl

/-- `State.reset` is what a reset on the reference platform leaves, but for the model's two counters. -/
theorem State.afterReset_reset : { State.reset.afterReset with draws := 0, ramEpoch := 0 } = State.reset := by
  decide

/-- Settles O11: each view is over the finitely many registers, levels, chips or banks, so it computes. -/
theorem resetStateValues : Obligations.ResetStateValues :=
  ⟨rfl, rfl, rfl, rfl, by decide, by decide, by decide, by decide, rfl, by decide, rfl, rfl, rfl, rfl, rfl, by decide,
    rfl, State.afterReset_reset⟩

end Sys2Proof.Machine
end

section
/-! PROOFS of the statements about pairs, banks and single instructions outside the families above (O12, O13, O15, O16,
O25, O44): the views they speak of as numbers, then each instruction's values and frame. -/

namespace Sys2Proof.Machine

/-! ### Pairs and banks -/

/-- A register is the even one of a pair exactly when it has twice the pair's number (R33). -/
theorem eq_evenReg_iff (r : Reg) (p : Pair) : r = evenReg p ↔ r.toNat = 2 * p.toNat := by
  rw [← BitVec.toNat_inj, evenReg_toNat]

theorem eq_oddReg_iff (r : Reg) (p : Pair) : r = oddReg p ↔ r.toNat = 2 * p.toNat + 1 := by
  rw [← BitVec.toNat_inj, oddReg_toNat]

/-- A pair after a write to a register: the half that the register is, if it is one of the pair's (R33). -/
theorem State.pair_setReg (s : State) (r : Reg) (v : Nibble) (p : Pair) : ((s.setReg r v).pair p).toNat =
    if r.toNat = 2 * p.toNat then v.toNat * 16 + (s.pair p).toNat % 16
    else if r.toNat = 2 * p.toNat + 1 then (s.pair p).toNat / 16 * 16 + v.toNat else (s.pair p).toNat := by
  have hodd := (s.reg (oddReg p)).isLt
  simp only [State.pair_toNat, State.reg_setReg, eq_evenReg_iff, eq_oddReg_iff]
  split_ifs <;> omega

/-- Settles O12, from the laws of a pair read, a pair write and a register write. -/
theorem pairIsTwoRegisters : Obligations.PairIsTwoRegisters := by
  refine ⟨fun s p => ?read, fun s p d r => ?write, State.pair_setReg⟩
  case read => rw [State.pair_toNat, evenReg_eq, oddReg_eq]
  case write => simp only [State.reg_setPair, eq_evenReg_iff, eq_oddReg_iff, upper4_eq_ofNat, lower4_eq_ofNat]

/-- Settles O13: the rows of the table compute. -/
theorem banksFollowDcl : Obligations.BanksFollowDcl :=
  ⟨rfl, rfl, rfl, rfl, rfl, rfl, rfl, rfl, fun _ => rfl, banksOf_ne_nil⟩

/-! ### Instructions -/

/-- Settles O15: the frame of an advance. -/
theorem wpmOnlyAdvances : Obligations.WpmOnlyAdvances :=
  ⟨rfl, fun s => ⟨_, rfl, s.pc_advance1, s.sameButPc_advance1⟩⟩

/-- Settles O16: what sending an address does to each latch, then an advance. -/
theorem srcLatchesAddress : Obligations.SrcLatchesAddress := by
  intro p s
  obtain ⟨sel, sent, hsend, hlatch⟩ := s.sendAddress_eq (s.pair p)
  have hexec := congrArg (fun t : State => (.next t.advance1 : Result)) hsend
  refine ⟨?enc, _, hexec, upper4_eq_ofNat _, rfl, fun b hb => ?selected, fun b hb => ?unselected,
    State.pc_advance1 _, s.sameButPc_advance1⟩
  case enc => rw [encode, pairWord_eq_ofNat, Nat.add_right_comm]; rfl
  case selected => exact ⟨(hlatch b).1.trans (if_pos hb), (hlatch b).2.trans (if_pos hb)⟩
  case unselected => exact ⟨(hlatch b).1.trans (if_neg hb), (hlatch b).2.trans (if_neg hb)⟩

theorem State.sameButPc_branchOn (s : State) (taken : Bool) (a8 : Byte) : s.SameButPc (s.branchOn taken a8) :=
  s.sameButPc_setPc _

/-- Where `JCN` goes on, by the condition of R160 as a proposition. -/
theorem State.pc_branchOn_jumpTaken (s : State) (c acc : Nibble) (cy test : Bool) (a8 : Byte) :
    (s.branchOn (jumpTaken c acc cy test) a8).pc =
      if (((c.getLsbD 2 = true ∧ acc = 0) ∨ (c.getLsbD 1 = true ∧ cy = true) ∨
        (c.getLsbD 0 = true ∧ test = false)) ↔ c.getLsbD 3 = false) then s.inPage 2 a8 else s.pcPlus 2 := by
  rw [State.pc_branchOn]
  exact if_congr (jumpTaken_iff c acc cy test) rfl rfl

/-- `JCN` with `c0 = 1` branches in the state that sampling `TEST` leaves (R48). -/
theorem exec_jcn_sampling {c : Nibble} {s s' : State} {v : Bool} (a8 : Byte) (hc : c.getLsbD 0 = true)
    (h : s.sampleTest = (v, s')) : exec (.jcn c a8) s = .next (s'.branchOn (jumpTaken c s.acc s.cy v) a8) := by
  simp only [exec, execJcn, testsInput, hc, h, if_true]

theorem exec_jcn_not_sampling {c : Nibble} (s : State) (a8 : Byte) (hc : c.getLsbD 0 = false) :
    exec (.jcn c a8) s = .next (s.branchOn (jumpTaken c s.acc s.cy true) a8) := by
  simp only [exec, execJcn, testsInput, hc, Bool.false_eq_true, if_false]

/-- Settles O25: with `c0 = 0` nothing is sampled, with `c0 = 1` the sample is the oldest supplied or a draw. -/
theorem jcnJumpsOnCondition : Obligations.JcnJumpsOnCondition := by
  intro c a8 s
  refine ⟨congrArg ([·, a8]) (nibbles_eq_ofNat 0x1#4 c), fun hc => ?unsampled, fun v vs hc hin => ?supplied,
    fun hc hin => ?drawn⟩
  case unsampled =>
    refine ⟨_, exec_jcn_not_sampling s a8 hc, s.sameButPc_branchOn _ a8, ?_⟩
    rw [State.pc_branchOn_jumpTaken]
    simp only [hc, Bool.false_eq_true, false_and, or_false]
  case supplied =>
    have hsample : s.sampleTest = (v, { s with testIn := vs }) := by simp only [State.sampleTest, hin]
    refine ⟨_, exec_jcn_sampling a8 hc hsample, rfl, s.sameButPc_branchOn _ a8, ?_⟩
    rw [State.pc_branchOn_jumpTaken]
    simp only [hc, true_and]
    rfl
  case drawn =>
    have hsample : s.sampleTest = (Config.freeTest s.draws, { s with draws := s.draws + 1 }) := by
      simp only [State.sampleTest, hin]
    refine ⟨_, exec_jcn_sampling a8 hc hsample, rfl, s.sameButPc_branchOn _ a8, ?_⟩
    rw [State.pc_branchOn_jumpTaken]
    simp only [hc, true_and]
    rfl

/-- The use of `DAA` (R231): after a binary addition of two decimal digits and a carry, the adjusted digit and carry are
those of the decimal sum. -/
theorem decimalAdjust_add4 (a x : Nibble) (c : Bool) (ha : a.toNat ≤ 9) (hx : x.toNat ≤ 9) :
    (decimalAdjust (add4 a x c).1 (add4 a x c).2).1.toNat + 10 * (decimalAdjust (add4 a x c).1 (add4 a x c).2).2.toNat
        = a.toNat + x.toNat + c.toNat ∧ (decimalAdjust (add4 a x c).1 (add4 a x c).2).1.toNat ≤ 9 := by
  revert a x c
  decide

/-- Settles O44: `ADD` and `DAA` are the two functions, and the rest is their composition. -/
theorem decimalAddition : Obligations.DecimalAddition := by
  intro s t r hacc hreg h
  cases h
  exact ⟨_, rfl, decimalAdjust_add4 s.acc (s.reg r) s.cy hacc hreg⟩

end Sys2Proof.Machine
end

section
/-! PROOFS of the statements about calls and returns (O23, O28, O55, O56): what one `JMS` and one `BBL` do to the levels
of the address stack, then sequences of them (spec/41_machine_2word.md, `JMS`; spec/40_machine_1word.md, `BBL`). -/

namespace Sys2Proof.Machine

/-! ### One call, one return -/

/-- Level `l` holds the specified address `a` (R35, R51). -/
def State.Holds (s : State) (l : Level) (a : Addr) : Prop := s.level l = a ∧ s.levelKnown l = true

/-- The levels are a ring of four (R36). -/
theorem level_ne_succ (l : Level) : l ≠ l + 1 := by revert l; decide

theorem level_ne_succ_succ (l : Level) : l ≠ l + 1 + 1 := by revert l; decide

theorem level_ne_pred (l : Level) : l ≠ l + 1 + 1 + 1 := by revert l; decide

theorem level_cycle (l : Level) : l + 1 + 1 + 1 + 1 = l := by revert l; decide

theorem exec_jms (a : Addr) (s : State) : exec (.jms a) s = .next (s.call (s.pcPlus 2) a) := by
  rw [← s.next2_eq]
  rfl

theorem State.level_call_caller (s : State) (ret target : Addr) : (s.call ret target).level s.sp = ret := by
  rw [State.level_call, if_neg (level_ne_succ s.sp).symm, if_pos rfl]

/-- A call leaves alone every level but the caller's and the one it enters. -/
theorem State.level_call_other (s : State) (ret target : Addr) {l : Level} (h : l ≠ s.sp) (h' : l ≠ s.sp + 1) :
    (s.call ret target).level l = s.level l ∧ (s.call ret target).levelKnown l = s.levelKnown l := by
  rw [State.level_call, State.levelKnown_call, if_neg h'.symm, if_neg h.symm, decide_eq_false h'.symm,
    decide_eq_false h.symm]
  exact ⟨rfl, rfl⟩

theorem State.levelKnown_call_caller (s : State) (ret target : Addr) : (s.call ret target).levelKnown s.sp = true := by
  simp [State.levelKnown_call]

theorem State.levelKnown_call_sp (s : State) (ret target : Addr) :
    (s.call ret target).levelKnown (s.call ret target).sp = true := by
  simp [State.levelKnown_call]

/-- `BBL` into a level that holds a specified address (R139): everything it does. -/
theorem exec_bbl {s : State} (d : Nibble) (h : s.levelKnown (s.sp - 1) = true) :
    ∃ t, exec (.bbl d) s = .next t ∧ t.sp = s.sp - 1 ∧ t.acc = d ∧
      (∀ l, l ≠ s.sp → t.level l = s.level l) ∧ (∀ l, t.levelKnown l = (s.levelKnown l && !decide (s.sp = l))) ∧
      { t with sp := s.sp, acc := s.acc, stk := s.stk, stkKnown := s.stkKnown, draws := s.draws } = s := by
  obtain ⟨-, t, ht, hsp, -, hlevel, hknown, hsame⟩ | ⟨hunknown, -⟩ := s.returnFromCall_cases
  · have hexec : exec (.bbl d) s = .next (t.setAcc d) := by simp only [exec, execBbl, ht]
    refine ⟨_, hexec, hsp, rfl, fun l hl => (hlevel l).trans (if_neg hl.symm), hknown, ?_⟩
    exact congrArg (fun u : State => { u with acc := s.acc }) hsame
  · cases h.symm.trans hunknown

theorem exec_bbl_fault {s : State} (d : Nibble) (h : s.levelKnown (s.sp - 1) = false) :
    exec (.bbl d) s = .fault .returnToUnknownLevel := by
  obtain ⟨hknown, -⟩ | ⟨-, herr⟩ := s.returnFromCall_cases
  · cases h.symm.trans hknown
  · simp only [exec, execBbl, herr]

/-- Settles O28: the caller's level, the level entered, and the other two, by the laws of a call. -/
theorem jmsCalls : Obligations.JmsCalls := by
  intro a s
  refine ⟨addressWords_eq_ofNat 0x5#4 a, _, exec_jms a s, BitVec.toNat_add _ _, s.pc_call _ a,
    s.level_call_caller _ a, s.levelKnown_call_caller _ a, s.levelKnown_call_sp _ a,
    fun l h h' => s.level_call_other _ a h h', rfl⟩

/-- Settles O23: the return enters the level below, and marks the one it leaves. -/
theorem bblReturns : Obligations.BblReturns := by
  intro d s
  refine ⟨congrArg ([·]) (nibbles_eq_ofNat 0xC#4 d), fun h => ?_⟩
  obtain ⟨t, hexec, hsp, hacc, hlevel, hknown, hsame⟩ := exec_bbl d h
  have hne : t.sp ≠ s.sp := by rw [hsp]; generalize s.sp = l; revert l; decide
  refine ⟨t, hexec, ?sp, hlevel _ hne, hacc, ?left, fun l hl => ⟨hlevel l hl, ?other⟩, hsame⟩
  case sp => rw [hsp]; generalize s.sp = l; revert l; decide
  case left => rw [hknown, decide_eq_true rfl, Bool.not_true, Bool.and_false]
  case other => rw [hknown, decide_eq_false hl.symm, Bool.not_false, Bool.and_true]

/-! ### Sequences -/

/-- A `JMS` at level `l`: the level keeps the return address, the next one is the PC and holds the target. -/
theorem holds_of_exec_jms {a : Addr} {s t : State} {l : Level} (hl : s.sp = l) (h : exec (.jms a) s = .next t) :
    t.sp = l + 1 ∧ t.pc = a ∧ t.Holds l (s.pcPlus 2) ∧
      ∀ q r, q ≠ l → q ≠ l + 1 → s.Holds q r → t.Holds q r := by
  subst hl
  obtain rfl := Host.Outcome.next.inj ((exec_jms a s).symm.trans h)
  refine ⟨rfl, s.pc_call _ a, ⟨s.level_call_caller _ a, s.levelKnown_call_caller _ a⟩, fun q r hq hq' hr => ?_⟩
  obtain ⟨hlevel, hknown⟩ := s.level_call_other (s.pcPlus 2) a hq hq'
  exact ⟨hlevel.trans hr.1, hknown.trans hr.2⟩

/-- A `BBL` to level `l`, which holds `a`: the level above is abandoned, and no level gains a specified address. -/
theorem exec_bbl_to {s : State} {l : Level} {a : Addr} (d : Nibble) (hsp : s.sp = l + 1) (h : s.Holds l a) :
    ∃ t, exec (.bbl d) s = .next t ∧ t.sp = l ∧ t.pc = a ∧ t.acc = d ∧
      (∀ q r, q ≠ l + 1 → s.Holds q r → t.Holds q r) ∧ t.levelKnown (l + 1) = false ∧
      ∀ q, s.levelKnown q = false → t.levelKnown q = false := by
  have hl : s.sp - 1 = l := by rw [hsp, BitVec.add_sub_cancel]
  obtain ⟨t, hexec, ht, hacc, hlevel, hknown, -⟩ := exec_bbl d (hl ▸ h.2)
  rw [hl] at ht
  rw [hsp] at hlevel hknown
  refine ⟨t, hexec, ht, ?pc, hacc, fun q r hq hr => ⟨(hlevel q hq).trans hr.1, ?known⟩, ?left, fun q hq => ?unknown⟩
  case pc => rw [State.pc, ht, hlevel l (level_ne_succ l), h.1]
  case known => rw [hknown, hr.2, decide_eq_false hq.symm]; rfl
  case left => rw [hknown, decide_eq_true rfl, Bool.not_true, Bool.and_false]
  case unknown => rw [hknown, hq, Bool.false_and]

/-- Settles O55: the caller's level still holds the return address that the `JMS` left there. -/
theorem callThenReturnResumes : Obligations.CallThenReturnResumes := by
  intro a d s t u hjms hsp hlevel hknown
  obtain ⟨ht, -, hret, -⟩ := holds_of_exec_jms rfl hjms
  obtain ⟨v, hexec, hv, hpc, hacc, -⟩ := exec_bbl_to d (hsp.trans ht) ⟨hlevel.trans hret.1, hknown.trans hret.2⟩
  exact ⟨v, hexec, hpc, hv, hacc⟩

/-- Settles O56: the levels above the first caller's keep the three newer return addresses; the first caller's is the
PC of the fourth subroutine, and the first return abandons it. -/
theorem fourthNestedCallLosesFirstReturn : Obligations.FourthNestedCallLosesFirstReturn := by
  intro a1 a2 a3 a4 d1 d2 d3 d4 s t1 t2 t3 t4 h1 h2 h3 h4
  obtain ⟨l, hl⟩ : ∃ l, s.sp = l := ⟨_, rfl⟩
  obtain ⟨sp1, -, -, -⟩ := holds_of_exec_jms hl h1
  obtain ⟨sp2, -, ret2, -⟩ := holds_of_exec_jms sp1 h2
  obtain ⟨sp3, -, ret3, keep3⟩ := holds_of_exec_jms sp2 h3
  obtain ⟨sp4, pc4, ret4, keep4⟩ := holds_of_exec_jms sp3 h4
  have ret3 := keep4 _ _ (level_ne_succ _) (level_ne_succ_succ _) ret3
  have ret2 := keep3 _ _ (level_ne_succ _) (level_ne_succ_succ _) ret2
  have ret2 := keep4 _ _ (level_ne_succ_succ _) (level_ne_pred _) ret2
  obtain ⟨u1, exec1, usp1, upc1, -, ukeep1, left1, -⟩ := exec_bbl_to d1 sp4 ret4
  obtain ⟨u2, exec2, usp2, upc2, -, ukeep2, -, lost2⟩ := exec_bbl_to d2 usp1 (ukeep1 _ _ (level_ne_succ_succ _) ret3)
  obtain ⟨u3, exec3, usp3, upc3, -, -, -, lost3⟩ :=
    exec_bbl_to d3 usp2 (ukeep2 _ _ (level_ne_succ_succ _) (ukeep1 _ _ (level_ne_pred _) ret2))
  have hfault : u3.levelKnown (u3.sp - 1) = false := by
    rw [usp3, BitVec.add_sub_cancel, ← level_cycle l]
    exact lost3 _ (lost2 _ left1)
  refine ⟨sp4.trans ((level_cycle l).trans hl.symm), ?_, u1, u2, u3, exec1, upc1, exec2, upc2, exec3, upc3,
    exec_bbl_fault d4 hfault⟩
  rw [hl, ← level_cycle l, ← sp4]
  exact pc4

end Sys2Proof.Machine
end

section
/-! PROOFS of the statements about the data access instructions (O30 to O38, O57): a store or a load that is ready, by
what its fold over the targets or its one read gives, then the instructions (spec/42_data_access.md). -/

namespace Sys2Proof.Machine

/-! ### Stores -/

theorem exec_wrm {s t : State} (h : s.RamReady) (hfold : s.ramTargets.foldl (State.writeChar s.acc) s = t) :
    exec .wrm s = .next t.advance1 := hfold ▸ s.storeRam_ready _ h

theorem exec_wmp {s t : State} (h : s.RamReady) (hfold : s.ramTargets.foldl (State.writePort s.acc) s = t) :
    exec .wmp s = .next t.advance1 := hfold ▸ s.storeRam_ready _ h

theorem exec_wrr {s t : State} (h : s.romSelSent = true) (hwrite : s.writeRomPort s.romSel s.acc = t) :
    exec .wrr s = .next t.advance1 := by
  simp only [exec, execWrr, State.atRomPort, h, if_true, hwrite]

/-- Settles O30: the cells reached are those of the fold over the targets. -/
theorem wrmStoresCharacter : Obligations.WrmStoresCharacter := by
  refine ⟨rfl, fun s h => ?_⟩
  obtain ⟨cs, hfold, hcell⟩ := State.foldl_writeChar s.acc s.ramTargets s
  exact ⟨_, exec_wrm h hfold, fun cell hr => (hcell cell).1 ((s.reaches_iff _ cell).1 hr),
    fun cell hr => (hcell cell).2 (mt (s.reaches_iff _ cell).2 hr), State.pc_advance1 _, s.sameButPc_advance1⟩

/-- The port of a populated selected chip, by bank and latched address (R65, R71, R196). -/
theorem State.port_reached_iff (s : State) (b : Bank) (c : BitVec 2) :
    (∃ t ∈ s.ramTargets, s.ramPopulated t = true ∧ b = t.bank ∧ c.toNat = t.chip) ↔
      b ∈ s.banks ∧ (s.ramAddr b).toNat / 64 = c.toNat ∧ c.toNat < s.platform.ramChipsPerBank := by
  simp only [State.ramTargets, List.mem_map, State.ramPopulated, decide_eq_true_iff, RamTarget.chip_eq]
  constructor
  · rintro ⟨_, ⟨b', hb, rfl⟩, hpop, rfl, hc⟩
    exact ⟨hb, hc.symm, hc ▸ hpop⟩
  · rintro ⟨hb, hc, hpop⟩
    exact ⟨_, ⟨b, hb, rfl⟩, hc.symm ▸ hpop, rfl, hc.symm⟩

/-- Settles O31: the ports driven are those of the fold over the targets. -/
theorem wmpDrivesRamPort : Obligations.WmpDrivesRamPort := by
  refine ⟨rfl, fun s h => ?_⟩
  obtain ⟨out, hfold, hport⟩ := State.foldl_writePort s.acc s.ramTargets s
  exact ⟨_, exec_wmp h hfold, fun b c => (hport b c).trans (if_congr (s.port_reached_iff b c) rfl rfl),
    State.pc_advance1 _, s.sameButPc_advance1⟩

/-- Settles O32: the port written is that of the chip in `ROMSEL`. -/
theorem wrrDrivesRomPort : Obligations.WrrDrivesRomPort := by
  refine ⟨rfl, fun s h => ?_⟩
  obtain ⟨out, hwrite⟩ := s.writeRomPort_eq s.romSel s.acc
  refine ⟨_, exec_wrr h hwrite, fun k => ?_, State.pc_advance1 _, s.sameButPc_advance1⟩
  have hport := s.romPort_writeRomPort s.romSel s.acc k
  rw [hwrite] at hport
  refine hport.trans (if_congr (and_congr_right ?_) rfl rfl)
  rintro rfl
  rfl

/-- A store of status characters that is ready: the cells reached are those of the fold over the targets (R184 to
R187). -/
theorem State.storeStatus_ready {s : State} (n : BitVec 2) (h : s.RamReady) :
    ∃ t, s.storeRam (State.writeStatus n s.acc) = .next t ∧
      (∀ cell, s.Reaches (fun x => x.statusCell n) cell → t.statusAt cell = s.acc) ∧
      (∀ cell, ¬ s.Reaches (fun x => x.statusCell n) cell → t.statusAt cell = s.statusAt cell) ∧
      t.pc = s.pcPlus 1 ∧ s.SameButPc { t with ramSt := s.ramSt } := by
  obtain ⟨cs, hfold, hcell⟩ := State.foldl_writeStatus n s.acc s.ramTargets s
  have hstore : s.storeRam (State.writeStatus n s.acc) = .next { s with ramSt := cs }.advance1 :=
    hfold ▸ s.storeRam_ready _ h
  exact ⟨_, hstore, fun cell hr => (hcell cell).1 ((s.reaches_iff _ cell).1 hr),
    fun cell hr => (hcell cell).2 (mt (s.reaches_iff _ cell).2 hr), State.pc_advance1 _, s.sameButPc_advance1⟩

/-- Settles O33: each of the four is the status store of its number. -/
theorem statusStores : Obligations.StatusStores := by
  intro i n w h
  simp only [List.mem_cons, List.not_mem_nil, or_false, Prod.mk.injEq] at h
  obtain ⟨rfl, rfl, rfl⟩ | ⟨rfl, rfl, rfl⟩ | ⟨rfl, rfl, rfl⟩ | ⟨rfl, rfl, rfl⟩ := h <;>
    exact ⟨rfl, fun s hs => State.storeStatus_ready _ hs⟩

/-! ### Loads -/

/-- A RAM read that is ready hands on what the one read gives. -/
theorem State.loadRam_of_readOne {s t : State} {read : State → RamTarget → Nibble × State} {m : Nibble}
    (use : State → Nibble → State) (h : s.RamReady) (hread : s.readOne read s.ramTargets = (m, t)) :
    s.loadRam read use = .next (use t m).advance1 := by
  rw [s.loadRam_ready read use h, hread]

theorem exec_adm {s t : State} {m : Nibble} (h : s.RamReady) (hread : s.readOne State.readChar s.ramTargets = (m, t)) :
    exec .adm s = .next (t.setAccCy (addWithCarry t.acc m t.cy)).advance1 :=
  State.loadRam_of_readOne (fun t m => t.setAccCy (addWithCarry t.acc m t.cy)) h hread

theorem exec_sbm {s t : State} {m : Nibble} (h : s.RamReady) (hread : s.readOne State.readChar s.ramTargets = (m, t)) :
    exec .sbm s = .next (t.setAccCy (subWithBorrow t.acc m t.cy)).advance1 :=
  State.loadRam_of_readOne (fun t m => t.setAccCy (subWithBorrow t.acc m t.cy)) h hread

/-- Settles O34: the character read, in a state the read left alone, goes through the laws of R121 and R122. -/
theorem ramReads : Obligations.RamReads := by
  refine ⟨rfl, rfl, rfl, fun s b a m hone hchip hm => ?_⟩
  have hready := State.ramReady_of_oneBank hone
  have hread := State.readOne_char hone hchip
  rw [hm] at hread
  refine ⟨⟨_, State.loadRam_of_readOne _ hready hread, rfl, State.pc_advance1 _, s.sameButAccPc_setAcc m⟩, ?adm, ?sbm⟩
  case adm =>
    exact ⟨_, exec_adm hready hread, add4_toNat _ _ _, add4_carry _ _ _, State.pc_advance1 _,
      s.sameButAccCyPc_setAccCy _⟩
  case sbm =>
    exact ⟨_, exec_sbm hready hread, subWithBorrow_toInt _ _ _, subWithBorrow_carry _ _ _, State.pc_advance1 _,
      s.sameButAccCyPc_setAccCy _⟩

/-- A load of a status character with one bank selected and a populated chip (R192 to R195). -/
theorem State.loadStatus_of_oneBank {s : State} {b : Bank} {a : Byte} (n : BitVec 2) (hone : s.OneBank b a)
    (hchip : a.toNat / 64 < s.platform.ramChipsPerBank) :
    s.loadRam (State.readStatus n) State.setAcc =
      .next (s.setAcc (s.statusAt (b.toNat * 64 + a.toNat / 16 * 4 + n.toNat))).advance1 :=
  State.loadRam_of_readOne _ (State.ramReady_of_oneBank hone) (State.readOne_status n hone hchip)

/-- Settles O35: each of the four is the status load of its number. -/
theorem statusReads : Obligations.StatusReads := by
  intro i n w h
  simp only [List.mem_cons, List.not_mem_nil, or_false, Prod.mk.injEq] at h
  obtain ⟨rfl, rfl, rfl⟩ | ⟨rfl, rfl, rfl⟩ | ⟨rfl, rfl, rfl⟩ | ⟨rfl, rfl, rfl⟩ := h <;>
    exact ⟨rfl, fun s b a hone hchip => ⟨_, State.loadStatus_of_oneBank _ hone hchip, rfl, State.pc_advance1 _,
      s.sameButAccPc_setAcc _⟩⟩

/-- No chip, or more than one bank, drives the bus: the premise under which a RAM read is a free value (logs 9, 11). -/
def State.Undriven (s : State) : Prop :=
  2 ≤ s.banks.length ∨ ∃ b, s.banks = [b] ∧ s.platform.ramChipsPerBank ≤ (s.ramAddr b).toNat / 64

/-- An undriven read draws, whatever is read, when a read from a missing chip does. -/
theorem State.readOne_undriven {s : State} {read : State → RamTarget → Nibble × State} (h : s.Undriven)
    (hread : ∀ t : RamTarget, s.platform.ramChipsPerBank ≤ t.chip → read s t = s.drawNibble) :
    s.readOne read s.ramTargets = s.drawNibble := by
  obtain hlen | ⟨b, hb, hchip⟩ := h
  · match hts : s.ramTargets with
    | [] => rfl
    | [t] =>
      have hone : s.banks.length = 1 := by rw [← List.length_map, ← State.ramTargets, hts]; rfl
      omega
    | _ :: _ :: _ => rfl
  · rw [State.ramTargets, hb]
    exact hread _ (by rwa [RamTarget.chip_eq])

theorem State.readChar_missing {s : State} (t : RamTarget) (h : s.platform.ramChipsPerBank ≤ t.chip) :
    s.readChar t = s.drawNibble := by
  obtain ⟨hlt, -⟩ | ⟨-, hdraw⟩ := s.readChar_cases t
  · omega
  · exact hdraw

theorem State.readStatus_missing {s : State} (n : BitVec 2) (t : RamTarget)
    (h : s.platform.ramChipsPerBank ≤ t.chip) : s.readStatus n t = s.drawNibble := by
  obtain ⟨hlt, -⟩ | ⟨-, hdraw⟩ := s.readStatus_cases n t
  · omega
  · exact hdraw

/-- Settles O37: every read draws, and the value drawn takes the place of the character. -/
theorem undrivenReadsAreFree : Obligations.UndrivenReadsAreFree := by
  intro s hready hundriven
  have hchar := State.readOne_undriven hundriven State.readChar_missing
  have hstatus (n : BitVec 2) := State.readOne_undriven hundriven (State.readStatus_missing n)
  refine ⟨fun i hi => ?loads, ?adm, ?sbm⟩
  case adm =>
    exact ⟨_, exec_adm hready hchar, add4_toNat _ _ _, add4_carry _ _ _, rfl, State.pc_advance1 _,
      s.sameButPc_advance1⟩
  case sbm =>
    exact ⟨_, exec_sbm hready hchar, subWithBorrow_toInt _ _ _, subWithBorrow_carry _ _ _, rfl, State.pc_advance1 _,
      s.sameButPc_advance1⟩
  case loads =>
    have hload {read : State → RamTarget → Nibble × State} (hread : s.readOne read s.ramTargets = s.drawNibble) :
        s.loadRam read State.setAcc = .next (s.drawNibble.2.setAcc (Config.freeNibble s.draws)).advance1 :=
      State.loadRam_of_readOne _ hready hread
    have hexec : exec i s = .next (s.drawNibble.2.setAcc (Config.freeNibble s.draws)).advance1 := by
      simp only [List.mem_cons, List.not_mem_nil, or_false] at hi
      obtain rfl | rfl | rfl | rfl | rfl := hi
      · exact hload hchar
      · exact hload (hstatus 0)
      · exact hload (hstatus 1)
      · exact hload (hstatus 2)
      · exact hload (hstatus 3)
    exact ⟨_, hexec, rfl, rfl, State.pc_advance1 _, s.sameButPc_advance1⟩

theorem exec_rdr {s t : State} {v : Nibble} (h : s.romSelSent = true) (hsample : s.sampleRomIn s.romSel = (v, t)) :
    exec .rdr s = .next (t.setAcc v).advance1 := by
  simp only [exec, execRdr, State.atRomPort, h, if_true, hsample]

/-- Settles O36: what sampling the input lines can do, in the two cases that exclude each other. -/
theorem rdrReadsInputLines : Obligations.RdrReadsInputLines := by
  refine ⟨rfl, fun s h => ⟨fun v vs hchip hin => ?supplied, fun hfree => ?drawn⟩⟩
  all_goals obtain ⟨hchip', v', vs', hin', hsample⟩ | ⟨hfree', hsample⟩ := s.sampleRomIn_cases s.romSel
  case supplied.inl =>
    obtain ⟨rfl, rfl⟩ := List.cons.inj (hin.symm.trans hin')
    exact ⟨_, exec_rdr h hsample, rfl, rfl, State.pc_advance1 _, s.sameButPc_advance1⟩
  case supplied.inr =>
    rw [hin] at hfree'
    obtain hmissing | hempty := hfree'
    · omega
    · cases hempty
  case drawn.inl =>
    rw [hin'] at hfree
    obtain hmissing | hempty := hfree
    · omega
    · cases hempty
  case drawn.inr => exact ⟨_, exec_rdr h hsample, rfl, rfl, State.pc_advance1 _, s.sameButPc_advance1⟩

/-! ### Accesses before an `SRC` -/

/-- The instructions that write RAM. -/
theorem exec_store {i : Instr} (s : State) (hi : i ∈ [Instr.wrm, .wmp, .wr0, .wr1, .wr2, .wr3]) :
    ∃ write, exec i s = s.storeRam write := by
  simp only [List.mem_cons, List.not_mem_nil, or_false] at hi
  obtain rfl | rfl | rfl | rfl | rfl | rfl := hi <;> exact ⟨_, rfl⟩

/-- The instructions that read RAM. -/
theorem exec_load {i : Instr} (s : State) (hi : i ∈ [Instr.sbm, .rdm, .adm, .rd0, .rd1, .rd2, .rd3]) :
    ∃ read use, exec i s = s.loadRam read use := by
  simp only [List.mem_cons, List.not_mem_nil, or_false] at hi
  obtain rfl | rfl | rfl | rfl | rfl | rfl | rfl := hi <;> simp only [exec] <;> exact ⟨_, _, rfl⟩

/-- The thirteen instructions that access RAM all go through the check of the latches (R196). -/
theorem exec_ramAccess {i : Instr} (s : State)
    (hi : i ∈ [Instr.wrm, .wmp, .wr0, .wr1, .wr2, .wr3] ++ [.sbm, .rdm, .adm, .rd0, .rd1, .rd2, .rd3]) :
    ∃ access, exec i s = s.atRam access := by
  obtain hi | hi := List.mem_append.1 hi
  · obtain ⟨write, hexec⟩ := exec_store s hi
    exact ⟨_, hexec⟩
  · obtain ⟨read, use, hexec⟩ := exec_load s hi
    exact ⟨_, hexec⟩

/-- The two instructions that access ROM ports go through the check of `ROMSEL` (R196). -/
theorem exec_romPortAccess {i : Instr} (s : State) (hi : i ∈ [Instr.wrr, .rdr]) :
    ∃ access, exec i s = s.atRomPort access := by
  simp only [List.mem_cons, List.not_mem_nil, or_false] at hi
  obtain rfl | rfl := hi <;> simp only [exec] <;> exact ⟨_, rfl⟩

theorem State.atRomPort_not_sent {s : State} (access : Nibble → Result) (h : s.romSelSent = false) :
    s.atRomPort access = .refused .romPortNeverSelected := by
  simp only [State.atRomPort, h, Bool.false_eq_true, if_false]

/-- Settles O38: the check comes before anything the access does. -/
theorem accessBeforeSrcRefused : Obligations.AccessBeforeSrcRefused := by
  refine ⟨fun i hi s h => ?ram, fun i hi s h => ?rom⟩
  case ram =>
    obtain ⟨access, hexec⟩ := exec_ramAccess s hi
    rw [hexec]
    exact s.atRam_not_ready access h
  case rom =>
    obtain ⟨access, hexec⟩ := exec_romPortAccess s hi
    rw [hexec]
    exact State.atRomPort_not_sent access h

/-! ### A read after a write -/

/-- With one bank selected and a populated chip, the one cell reached is that of the latched address. -/
theorem State.reaches_of_oneBank {s : State} {b : Bank} {a : Byte} (cellOf : RamTarget → Nat) (hone : s.OneBank b a)
    (hchip : a.toNat / 64 < s.platform.ramChipsPerBank) : s.Reaches cellOf (cellOf ⟨b, a⟩) := by
  obtain ⟨hbanks, -, rfl⟩ := hone
  refine ⟨b, hbanks ▸ List.mem_singleton_self b, ?_, rfl⟩
  rwa [State.ramPopulated, decide_eq_true_iff, RamTarget.chip_eq]

/-- A status load after a status store to the same chip and RAM register, the cell left alone between (R81 (a)). -/
theorem State.loadStatus_after_storeStatus {s t u : State} {b : Bank} {a a' : Byte} (n : BitVec 2)
    (hs : s.OneBank b a) (hchip : a.toNat / 64 < s.platform.ramChipsPerBank) (hu : u.OneBank b a')
    (hchip' : a'.toNat / 64 < u.platform.ramChipsPerBank) (ha : a'.toNat / 16 = a.toNat / 16)
    (hstore : s.storeRam (State.writeStatus n s.acc) = .next t)
    (hcell : u.statusAt (b.toNat * 64 + a.toNat / 16 * 4 + n.toNat)
      = t.statusAt (b.toNat * 64 + a.toNat / 16 * 4 + n.toNat)) :
    ∃ v, u.loadRam (State.readStatus n) State.setAcc = .next v ∧ v.acc = s.acc := by
  obtain ⟨t', hstore', hwritten, -⟩ := State.storeStatus_ready n (State.ramReady_of_oneBank hs)
  obtain rfl : t = t' := Host.Outcome.next.inj (hstore.symm.trans hstore')
  have hval := hwritten _ (State.reaches_of_oneBank _ hs hchip)
  rw [RamTarget.statusCell_eq] at hval
  refine ⟨_, State.loadStatus_of_oneBank n hu hchip', ?_⟩
  rw [State.advance1_acc, State.setAcc_acc, ha, hcell]
  exact hval

/-- Settles O57: the store wrote the one cell reached, which the read then finds as it was left. -/
theorem readReturnsLastWrite : Obligations.ReadReturnsLastWrite := by
  intro s t u b a a' hs hchip hu hplatform
  refine ⟨?char, fun w r n hwr ha hstore hcell => ?status⟩
  case char =>
    rintro rfl hstore hcell
    obtain ⟨-, hexec⟩ := wrmStoresCharacter
    obtain ⟨t', hstore', hwritten, -⟩ := hexec s (State.ramReady_of_oneBank hs)
    obtain rfl : t = t' := Host.Outcome.next.inj (hstore.symm.trans hstore')
    have hval := hwritten _ (State.reaches_of_oneBank _ hs hchip)
    rw [RamTarget.charCell_eq] at hval
    refine ⟨_, State.loadRam_of_readOne _ (State.ramReady_of_oneBank hu)
      (State.readOne_char hu (hplatform.symm ▸ hchip)), ?_⟩
    rw [State.advance1_acc, State.setAcc_acc, hcell]
    exact hval
  case status =>
    have hchip' : a'.toNat / 64 < u.platform.ramChipsPerBank := by rw [hplatform]; omega
    simp only [List.mem_cons, List.not_mem_nil, or_false, Prod.mk.injEq] at hwr
    obtain ⟨rfl, rfl, rfl⟩ | ⟨rfl, rfl, rfl⟩ | ⟨rfl, rfl, rfl⟩ | ⟨rfl, rfl, rfl⟩ := hwr <;>
      exact State.loadStatus_after_storeStatus _ hs hchip hu hchip' ha hstore hcell

end Sys2Proof.Machine
end

section
/-! PROOFS of the frame statements (O24, O47 to O50, O52): what an instruction leaves unchanged, by the effects it can
have, and how it can stop (spec/10_state.md section 1, spec/60_exceptions.md section 1). -/

namespace Sys2Proof.Machine

/-! ### What a next state leaves unchanged -/

/-- Settles O47: only a store's effect writes the space it is named for; a view of any other reads the same field. -/
theorem onlyStoresWriteMemory : Obligations.OnlyStoresWriteMemory := by
  intro i s t h
  cases exec_effect h with
  | charStore =>
    exact ⟨fun hi => absurd rfl hi, fun _ _ => rfl, fun _ _ _ => rfl, fun _ _ => rfl, fun _ => rfl⟩
  | statusStore hstore =>
    exact ⟨fun _ _ => rfl, fun hi => absurd hstore hi, fun _ _ _ => rfl, fun _ _ => rfl, fun _ => rfl⟩
  | ramPortStore =>
    exact ⟨fun _ _ => rfl, fun _ _ => rfl, fun hi => absurd rfl hi, fun _ _ => rfl, fun _ => rfl⟩
  | romPortStore =>
    exact ⟨fun _ _ => rfl, fun _ _ => rfl, fun _ _ _ => rfl, fun hi => absurd rfl hi, fun _ => rfl⟩
  | ret hret =>
    obtain ⟨_, _, _, _, rfl⟩ := State.returnFromCall_ok hret
    exact ⟨fun _ _ => rfl, fun _ _ => rfl, fun _ _ _ => rfl, fun _ _ => rfl, fun _ => rfl⟩
  | _ => exact ⟨fun _ _ => rfl, fun _ _ => rfl, fun _ _ _ => rfl, fun _ _ => rfl, fun _ => rfl⟩

/-- A register that a register write changes is the one written. -/
theorem State.eq_of_reg_setReg_ne {s : State} {r q : Reg} {v : Nibble} (h : (s.setReg q v).reg r ≠ s.reg r) :
    q = r := by
  by_contra hne
  exact h (by rw [State.reg_setReg, if_neg hne])

/-- A register that a pair write changes is one of the pair's. -/
theorem State.pair_of_reg_setPair_ne {s : State} {r : Reg} {p : Pair} {d : Byte}
    (h : (s.setPair p d).reg r ≠ s.reg r) : p.toNat = r.toNat / 2 := by
  by_contra hne
  exact h ((s.sameButRegsPc_setPair p d s.pc).2 r fun hr => hne hr.symm)

/-- Settles O48: a register is changed by a register write or a pair write, and these name it. -/
theorem indexRegisterWriters : Obligations.IndexRegisterWriters := by
  intro i s t r h hne
  cases exec_effect h with
  | pairWrite hi => exact .inr (.inr (.inr ⟨_, State.pair_of_reg_setPair_ne hne, hi⟩))
  | regWrite hi =>
    obtain rfl := State.eq_of_reg_setReg_ne hne
    obtain hinc | hisz := hi
    · exact .inl hinc
    · exact .inr (.inl hisz)
  | exchange =>
    obtain rfl := State.eq_of_reg_setReg_ne (s := s.setAcc _) hne
    exact .inr (.inr (.inl rfl))
  | ret hret =>
    obtain ⟨_, _, _, _, rfl⟩ := State.returnFromCall_ok hret
    exact absurd rfl hne
  | _ => exact absurd rfl hne

/-- Settles O49: the effects that write `CY` or `ACC` name their instructions. -/
theorem accumulatorAndCarryWriters : Obligations.AccumulatorAndCarryWriters := by
  intro i s t h
  cases exec_effect h with
  | exchange => exact ⟨absurd rfl, fun _ => .inl ⟨_, .inr (.inr (.inr (.inl rfl)))⟩⟩
  | accWrite hi =>
    refine ⟨absurd rfl, fun _ => ?_⟩
    obtain ⟨r, rfl⟩ | ⟨d, rfl⟩ | hi := hi
    · exact .inl ⟨r, by simp⟩
    · exact .inl ⟨d, by simp⟩
    · exact .inr ((by decide : (_ : List Instr) ⊆ _) hi)
  | portRead => exact ⟨absurd rfl, fun _ => .inr (by simp)⟩
  | accCyWrite hi =>
    obtain ⟨r, hi⟩ | hi := hi
    · exact ⟨fun _ => .inl ⟨r, hi⟩, fun _ => .inl ⟨r, hi.imp_right .inl⟩⟩
    · exact ⟨fun _ => .inr ((by decide : (_ : List Instr) ⊆ _) hi),
        fun _ => .inr ((by decide : (_ : List Instr) ⊆ _) hi)⟩
  | cyWrite hi => exact ⟨fun _ => .inr ((by decide : (_ : List Instr) ⊆ _) hi), absurd rfl⟩
  | ret hret =>
    obtain ⟨_, _, _, _, rfl⟩ := State.returnFromCall_ok hret
    exact ⟨absurd rfl, fun _ => .inl ⟨_, .inr (.inr (.inr (.inr (.inr rfl))))⟩⟩
  | _ => exact ⟨absurd rfl, absurd rfl⟩

/-- Settles O50: `DCL`, the stack beyond the PC, and the latches each have an effect of their own. -/
theorem controlStateWriters : Obligations.ControlStateWriters := by
  intro i s t h
  cases exec_effect h with
  | dclWrite =>
    exact ⟨fun hi => absurd rfl hi, fun _ _ => ⟨rfl, fun _ => rfl, (State.sameButPc_setPc _ _).2⟩,
      fun _ => ⟨rfl, rfl, fun _ => ⟨rfl, rfl⟩⟩⟩
  | latches =>
    exact ⟨fun _ => rfl, fun _ _ => ⟨rfl, fun _ => rfl, (State.sameButPc_setPc _ _).2⟩, fun hi => absurd rfl (hi _)⟩
  | call =>
    exact ⟨fun _ => rfl, fun hi _ => absurd rfl (hi _), fun _ => ⟨rfl, rfl, fun _ => ⟨rfl, rfl⟩⟩⟩
  | ret hret =>
    obtain ⟨_, _, _, _, rfl⟩ := State.returnFromCall_ok hret
    exact ⟨fun _ => rfl, fun _ hi => absurd rfl (hi _), fun _ => ⟨rfl, rfl, fun _ => ⟨rfl, rfl⟩⟩⟩
  | _ =>
    exact ⟨fun _ => rfl, fun _ _ => ⟨rfl, fun _ => rfl, (State.sameButPc_setPc _ _).2⟩,
      fun _ => ⟨rfl, rfl, fun _ => ⟨rfl, rfl⟩⟩⟩

/-! ### How an instruction can stop -/

/-- A RAM access goes on, or is refused for a selected bank whose latch was never written (R196). -/
theorem exec_ramAccess_cases {i : Instr} (s : State)
    (hi : i ∈ [Instr.wrm, .wmp, .wr0, .wr1, .wr2, .wr3] ++ [.sbm, .rdm, .adm, .rd0, .rd1, .rd2, .rd3]) :
    (∃ t, exec i s = .next t) ∨
      ∃ b ∈ s.banks, s.ramAddrSent b = false ∧ exec i s = .refused (.ramAddressNeverSent b) := by
  by_cases hready : s.RamReady
  · left
    obtain hi | hi := List.mem_append.1 hi
    · obtain ⟨write, hexec⟩ := exec_store s hi
      exact ⟨_, hexec.trans (s.storeRam_ready write hready)⟩
    · obtain ⟨read, use, hexec⟩ := exec_load s hi
      exact ⟨_, hexec.trans (s.loadRam_ready read use hready)⟩
  · right
    obtain ⟨access, hexec⟩ := exec_ramAccess s hi
    rw [hexec]
    exact s.atRam_not_ready access hready

/-- A ROM port access goes on, or is refused because `ROMSEL` was never written (R196). -/
theorem exec_romPortAccess_cases {i : Instr} (s : State) (hi : i ∈ [Instr.wrr, .rdr]) :
    (∃ t, exec i s = .next t) ∨ (s.romSelSent = false ∧ exec i s = .refused .romPortNeverSelected) := by
  cases hsent : s.romSelSent with
  | true =>
    simp only [List.mem_cons, List.not_mem_nil, or_false] at hi
    obtain rfl | rfl := hi
    · exact .inl ⟨_, exec_wrr hsent rfl⟩
    · exact .inl ⟨_, exec_rdr hsent rfl⟩
  | false =>
    obtain ⟨access, hexec⟩ := exec_romPortAccess s hi
    exact .inr ⟨rfl, hexec.trans (State.atRomPort_not_sent access hsent)⟩

/-- Every instruction in every state: it answers a next state, or it is a `BBL` into an unspecified level, an access
whose latch was never written, or a `FIN` from a chip the platform lacks. -/
theorem exec_cases (i : Instr) (s : State) :
    (∃ t, exec i s = .next t) ∨
    (∃ d, i = .bbl d ∧ s.levelKnown (s.sp - 1) = false ∧ exec i s = .fault .returnToUnknownLevel) ∨
    (∃ b ∈ s.banks, s.ramAddrSent b = false ∧ exec i s = .refused (.ramAddressNeverSent b)) ∨
    (s.romSelSent = false ∧ exec i s = .refused .romPortNeverSelected) ∨
    ∃ p, i = .fin p ∧ s.platform.romChips ≤ (s.pcPlus 1).toNat / 256 ∧
      exec i s = .refused (.romNotPopulated (s.inPage 1 (s.pair 0))) := by
  by_cases hram : i ∈ [Instr.wrm, .wmp, .wr0, .wr1, .wr2, .wr3] ++ [.sbm, .rdm, .adm, .rd0, .rd1, .rd2, .rd3]
  · obtain hnext | hrefused := exec_ramAccess_cases s hram
    · exact .inl hnext
    · exact .inr (.inr (.inl hrefused))
  by_cases hrom : i ∈ [Instr.wrr, .rdr]
  · obtain hnext | hrefused := exec_romPortAccess_cases s hrom
    · exact .inl hnext
    · exact .inr (.inr (.inr (.inl hrefused)))
  cases i
  case bbl d =>
    cases hknown : s.levelKnown (s.sp - 1) with
    | true =>
      obtain ⟨t, hexec, -⟩ := exec_bbl d hknown
      exact .inl ⟨t, hexec⟩
    | false => exact .inr (.inl ⟨d, rfl, rfl, exec_bbl_fault d hknown⟩)
  case fin p =>
    by_cases hchip : (s.pcPlus 1).toNat / 256 < s.platform.romChips
    · exact .inl ⟨_, exec_fin p s hchip⟩
    · exact .inr (.inr (.inr (.inr ⟨p, rfl, Nat.not_lt.1 hchip, exec_fin_missing p (Nat.not_lt.1 hchip)⟩)))
  case jcn c a8 =>
    cases hc : c.getLsbD 0 with
    | true => exact .inl ⟨_, exec_jcn_sampling a8 hc rfl⟩
    | false => exact .inl ⟨_, exec_jcn_not_sampling s a8 hc⟩
  case wrm | wmp | wr0 | wr1 | wr2 | wr3 | sbm | rdm | adm | rd0 | rd1 | rd2 | rd3 => exact absurd (by decide) hram
  case wrr | rdr => exact absurd (by decide) hrom
  all_goals exact .inl ⟨_, rfl⟩

/-- Settles O24: of the ways to stop only the `BBL`'s is a fault. -/
theorem onlyUnknownReturnFaults : Obligations.OnlyUnknownReturnFaults := by
  refine ⟨fun d s h => exec_bbl_fault d h, fun i s f h => ?_⟩
  obtain ⟨t, hexec⟩ | ⟨d, hi, hknown, -⟩ | ⟨b, -, -, hexec⟩ | ⟨-, hexec⟩ | ⟨p, -, -, hexec⟩ := exec_cases i s
  case inr.inl => exact ⟨⟨d, hi⟩, hknown⟩
  all_goals cases h.symm.trans hexec

/-- Settles O52: the other ways to stop are the refusals, each with its cause. -/
theorem instructionsRefuseOnlyByDuty : Obligations.InstructionsRefuseOnlyByDuty := by
  intro i s r h
  obtain ⟨t, hexec⟩ | ⟨d, -, -, hexec⟩ | ⟨b, hb, hsent, hexec⟩ | ⟨hsent, hexec⟩ | ⟨p, hi, hchip, hexec⟩ :=
    exec_cases i s
  all_goals cases h.symm.trans hexec
  · exact .inl ⟨b, hb, hsent, rfl⟩
  · exact .inr (.inl ⟨hsent, rfl⟩)
  · exact .inr (.inr ⟨p, hi, hchip, rfl⟩)

end Sys2Proof.Machine
end

section
/-! PROOFS of the statement about the inputs (O59): a change of the samples the host has supplied goes through every
operation, and through every instruction that does not sample the input changed (spec/10_state.md section 2). -/

namespace Sys2Proof.Machine

/-- The state with other input samples: `g` changes those of `TEST`, `k` those of the ROM input lines. -/
def State.mapInputs (g : List Bool → List Bool) (k : Vector (List Nibble) 16 → Vector (List Nibble) 16) (s : State) :
    State :=
  { s with testIn := g s.testIn, romIn := k s.romIn }

section
variable (g : List Bool → List Bool) (k : Vector (List Nibble) 16 → Vector (List Nibble) 16) (s : State)

/-! ### Operations that see no input -/

theorem State.romRead_mapInputs (a : Addr) : (s.mapInputs g k).romRead a = s.romRead a := rfl

theorem State.next1_mapInputs : (s.mapInputs g k).next1 = s.next1 := rfl

theorem State.pair_mapInputs (p : Pair) : (s.mapInputs g k).pair p = s.pair p := rfl

theorem State.latchRam_mapInputs (a : Byte) (b : Bank) :
    (s.mapInputs g k).latchRam a b = (s.latchRam a b).mapInputs g k := rfl

theorem State.sendAddress_mapInputs (a : Byte) :
    (s.mapInputs g k).sendAddress a = (s.sendAddress a).mapInputs g k :=
  List.foldl_hom (l := s.banks) (init := s.latchRom a) (State.mapInputs g k) fun t b => t.latchRam_mapInputs g k a b

theorem State.writeChar_mapInputs (v : Nibble) (t : RamTarget) :
    (s.mapInputs g k).writeChar v t = (s.writeChar v t).mapInputs g k := by
  rw [State.writeChar, State.writeChar, apply_ite (State.mapInputs g k)]
  rfl

theorem State.writeStatus_mapInputs (n : BitVec 2) (v : Nibble) (t : RamTarget) :
    (s.mapInputs g k).writeStatus n v t = (s.writeStatus n v t).mapInputs g k := by
  rw [State.writeStatus, State.writeStatus, apply_ite (State.mapInputs g k)]
  rfl

theorem State.writePort_mapInputs (v : Nibble) (t : RamTarget) :
    (s.mapInputs g k).writePort v t = (s.writePort v t).mapInputs g k := by
  rw [State.writePort, State.writePort, apply_ite (State.mapInputs g k)]
  rfl

theorem State.writeRomPort_mapInputs (p v : Nibble) :
    (s.mapInputs g k).writeRomPort p v = (s.writeRomPort p v).mapInputs g k := by
  rw [State.writeRomPort, State.writeRomPort, apply_ite (State.mapInputs g k)]
  rfl

theorem State.readChar_mapInputs (t : RamTarget) :
    (s.mapInputs g k).readChar t = (s.readChar t).map id (State.mapInputs g k) := by
  rw [State.readChar, State.readChar, apply_ite (Prod.map id (State.mapInputs g k))]
  rfl

theorem State.readStatus_mapInputs (n : BitVec 2) (t : RamTarget) :
    (s.mapInputs g k).readStatus n t = (s.readStatus n t).map id (State.mapInputs g k) := by
  rw [State.readStatus, State.readStatus, apply_ite (Prod.map id (State.mapInputs g k))]
  rfl

theorem State.returnFromCall_mapInputs :
    (s.mapInputs g k).returnFromCall = s.returnFromCall.map (State.mapInputs g k) := by
  rw [State.returnFromCall, State.returnFromCall, apply_ite (Except.map (State.mapInputs g k))]
  rfl

/-! ### Accesses -/

variable {g k s}

/-- The advance with which a data access ends sees no input. -/
theorem next_advance1_mapInputs {t : State} (h : t = s.mapInputs g k) :
    (.next t.advance1 : Result) = mapNext (State.mapInputs g k) (.next s.advance1) := by
  subst h
  rfl

theorem State.atRam_mapInputs {access access' : List RamTarget → Result}
    (h : access' s.ramTargets = mapNext (State.mapInputs g k) (access s.ramTargets)) :
    (s.mapInputs g k).atRam access' = mapNext (State.mapInputs g k) (s.atRam access) := by
  cases hfind : s.banks.find? fun b => !s.ramAddrSent b with
  | none =>
    have hfind' : (s.mapInputs g k).banks.find? (fun b => !(s.mapInputs g k).ramAddrSent b) = none := hfind
    simp only [State.atRam, hfind, hfind']
    exact h
  | some b =>
    have hfind' : (s.mapInputs g k).banks.find? (fun b => !(s.mapInputs g k).ramAddrSent b) = some b := hfind
    simp only [State.atRam, hfind, hfind', mapNext]

/-- A store does the same whatever the inputs, when each of its writes does. -/
theorem State.storeRam_mapInputs {write : State → RamTarget → State}
    (hwrite : ∀ s t, write (s.mapInputs g k) t = (write s t).mapInputs g k) :
    (s.mapInputs g k).storeRam write = mapNext (State.mapInputs g k) (s.storeRam write) :=
  State.atRam_mapInputs (next_advance1_mapInputs (List.foldl_hom (State.mapInputs g k) hwrite))

/-- A load does the same whatever the inputs, when its read and its use of the value do. -/
theorem State.loadRam_mapInputs {read : State → RamTarget → Nibble × State} {use : State → Nibble → State}
    (hread : ∀ t, read (s.mapInputs g k) t = (read s t).map id (State.mapInputs g k))
    (huse : ∀ t m, use (t.mapInputs g k) m = (use t m).mapInputs g k) :
    (s.mapInputs g k).loadRam read use = mapNext (State.mapInputs g k) (s.loadRam read use) := by
  have hone : ∀ ts, (s.mapInputs g k).readOne read ts = (s.readOne read ts).map id (State.mapInputs g k)
    | [] => rfl
    | [t] => hread t
    | _ :: _ :: _ => rfl
  refine State.atRam_mapInputs (next_advance1_mapInputs ?_)
  rw [hone]
  exact huse _ _

theorem State.atRomPort_mapInputs {access access' : Nibble → Result}
    (h : access' s.romSel = mapNext (State.mapInputs g k) (access s.romSel)) :
    (s.mapInputs g k).atRomPort access' = mapNext (State.mapInputs g k) (s.atRomPort access) := by
  rw [State.atRomPort, State.atRomPort, apply_ite (mapNext (State.mapInputs g k)), ← h]
  rfl

/-! ### Sampling, and the other operations with a choice -/

/-- What sampling `TEST` does is the same whatever is on the ROM input lines. -/
theorem State.sampleTest_mapInputs :
    (s.mapInputs id k).sampleTest = s.sampleTest.map id (State.mapInputs id k) := by
  cases h : s.testIn <;> simp [State.sampleTest, State.mapInputs, h]

/-- What sampling ROM input lines does is the same whatever is on `TEST`. -/
theorem State.sampleRomIn_mapInputs (p : Nibble) :
    (s.mapInputs g id).sampleRomIn p = (s.sampleRomIn p).map id (State.mapInputs g id) := by
  unfold State.sampleRomIn
  refine Eq.trans ?_ (apply_ite (Prod.map id (State.mapInputs g id)) _ _ _).symm
  cases h : s.romIn[p.toNat] <;> simp [State.mapInputs, h] <;> rfl

end

/-! ### Instructions -/

/-- An instruction does the same whatever the inputs, and leaves them; but a `JCN` that samples `TEST`, and `RDR`, need
the input they sample to be as it was. -/
theorem exec_mapInputs (g : List Bool → List Bool) (k : Vector (List Nibble) 16 → Vector (List Nibble) 16)
    {i : Instr} (s : State) (hjcn : ∀ c a8, i = .jcn c a8 → c.getLsbD 0 = false ∨ g = id) (hrdr : i = .rdr → k = id) :
    exec i (s.mapInputs g k) = mapNext (State.mapInputs g k) (exec i s) := by
  cases i
  case jcn c a8 =>
    cases hc : c.getLsbD 0 with
    | false =>
      rw [exec_jcn_not_sampling _ a8 hc, exec_jcn_not_sampling _ a8 hc]
      rfl
    | true =>
      obtain rfl : g = id := (hjcn c a8 rfl).resolve_left (by simp [hc])
      rw [exec_jcn_sampling a8 hc State.sampleTest_mapInputs, exec_jcn_sampling a8 hc rfl]
      rfl
  case rdr =>
    obtain rfl := hrdr rfl
    simp only [exec, execRdr]
    refine State.atRomPort_mapInputs (next_advance1_mapInputs ?_)
    rw [State.sampleRomIn_mapInputs]
    rfl
  case fin p =>
    simp only [exec, execFin, State.next1_mapInputs, State.pair_mapInputs, State.romRead_mapInputs]
    cases s.romRead (pageTarget s.next1 (s.pair 0)) <;> rfl
  case bbl d =>
    simp only [exec, execBbl, State.returnFromCall_mapInputs]
    cases s.returnFromCall <;> rfl
  case src p => exact next_advance1_mapInputs (s.sendAddress_mapInputs g k _)
  case wrm => exact State.storeRam_mapInputs fun t => t.writeChar_mapInputs g k s.acc
  case wmp => exact State.storeRam_mapInputs fun t => t.writePort_mapInputs g k s.acc
  case wr0 | wr1 | wr2 | wr3 => exact State.storeRam_mapInputs fun t => t.writeStatus_mapInputs g k _ s.acc
  case wrr =>
    simp only [exec, execWrr]
    exact State.atRomPort_mapInputs (next_advance1_mapInputs (s.writeRomPort_mapInputs g k _ _))
  case rdm => exact State.loadRam_mapInputs (s.readChar_mapInputs g k) fun _ _ => rfl
  case adm =>
    exact State.loadRam_mapInputs (use := fun t m => t.setAccCy (addWithCarry t.acc m t.cy))
      (s.readChar_mapInputs g k) fun _ _ => rfl
  case sbm =>
    exact State.loadRam_mapInputs (use := fun t m => t.setAccCy (subWithBorrow t.acc m t.cy))
      (s.readChar_mapInputs g k) fun _ _ => rfl
  case rd0 | rd1 | rd2 | rd3 => exact State.loadRam_mapInputs (s.readStatus_mapInputs g k _) fun _ _ => rfl
  all_goals rfl

/-- Settles O59: replacing one input leaves the other alone, so only the instruction that samples it is excepted. -/
theorem inputsSeenOnlyByJcnAndRdr : Obligations.InputsSeenOnlyByJcnAndRdr := by
  refine ⟨fun i s vs hjcn => ?test, fun i s vs hrdr => ?rom⟩
  case test => exact exec_mapInputs (fun _ => vs) id s (fun c a8 hi => .inl (hjcn c a8 hi)) fun _ => rfl
  case rom => exact exec_mapInputs id (fun _ => vs) s (fun _ _ _ => .inr rfl) fun hi => absurd hi hrdr

end Sys2Proof.Machine
end
